-- ==== Sys2Proof/Word.lean ====
section
/-! DEFINITION. The widths of the block (spec/00_scope.md R7): bytes, 16-bit words, 12-bit address immediates, and the
indices of registers and keys. Nothing here computes. -/

namespace Sys2Proof

/-- An 8-bit value: a general register, a memory cell, a timer, the immediate `kk` (R11, R17, R20, R47). -/
abbrev Byte := BitVec 8

/-- A 16-bit value: an instruction word, PC, I, a stack slot (R13, R14, R16, R45). -/
abbrev Word := BitVec 16

/-- The 12-bit address immediate `nnn` (R47). -/
abbrev Addr := BitVec 12

/-- The index of a general register, the fields `x` and `y`: all sixteen values are legal (R11, R47). -/
abbrev Reg := Fin 16

/-- The index of a key flag (R22, R146). -/
abbrev Key := Fin 16

end Sys2Proof
end

