-- ==== Sys2Proof/Config.lean ====
section
/-! DEFINITION. The sizes the source fixes and the three parameters the spec leaves open (spec/00_scope.md R7). The open
parameters are opaque constants without a body: no proof can learn a value of one, so a statement about them holds
whatever they are. -/

namespace Sys2Proof.Config

/-- MEM_SIZE: cells of the one memory (R7, R17). -/
abbrev memSize : Nat := 4096

/-- FONT_SIZE: 16 glyphs of 5 bytes from address 0 (R7, R17). -/
abbrev fontSize : Nat := 80

/-- PROG_BASE: first address of program space and reset value of PC (R7). -/
abbrev progBase : Nat := 0x200

/-- MAX_PROG: the largest image LOAD accepts, 4096 − 512 bytes (R7, R163). -/
abbrev maxProg : Nat := 3584

/-- FREE VALUE (assumption 1). The parameter FONT: `fontByte a` is byte `a` of the font table, 0 ≤ a < 80. The source
prints none of its bytes and the spec forbids resting on them (R17, D21, G1). -/
opaque fontByte : Nat → Byte

/-- FREE VALUE (assumption 2). The parameter `rnd`: `rnd d` is the byte of the `d`-th draw. No law binds it, not even
that two draws differ (R93, R150, D16). -/
opaque rnd : Nat → Byte

/-- FREE VALUE (assumption 3). The parameter KeyPick, as a position in the list of pressed keys (taken modulo its
length, so every function from non-empty sets to their members is some value of it; R122 (c), D17). -/
opaque keyChoice : List Key → Nat

/-- The default FONT of R17 (general knowledge, G1): a name for a hypothesis, which no definition of the model uses. -/
def defaultFont : List Byte :=
  [0xF0, 0x90, 0x90, 0x90, 0xF0, 0x20, 0x60, 0x20, 0x20, 0x70, 0xF0, 0x10, 0xF0, 0x80, 0xF0, 0xF0, 0x10, 0xF0, 0x10, 0xF0]
  ++ [0x90, 0x90, 0xF0, 0x10, 0x10, 0xF0, 0x80, 0xF0, 0x10, 0xF0, 0xF0, 0x80, 0xF0, 0x90, 0xF0, 0xF0, 0x10, 0x20, 0x40, 0x40]
  ++ [0xF0, 0x90, 0xF0, 0x90, 0xF0, 0xF0, 0x90, 0xF0, 0x10, 0xF0, 0xF0, 0x90, 0xF0, 0x90, 0x90, 0xE0, 0x90, 0xE0, 0x90, 0xE0]
  ++ [0xF0, 0x80, 0x80, 0x80, 0xF0, 0xE0, 0x90, 0x90, 0x90, 0xE0, 0xF0, 0x80, 0xF0, 0x80, 0xF0, 0xF0, 0x80, 0xF0, 0x80, 0x80]

/-- The default KeyPick of R122 (c) as a position in the ascending list of pressed keys: the last, that is the highest
index. A name for a hypothesis, which no definition of the model uses. -/
def defaultKeyChoice (pressed : List Key) : Nat := pressed.length - 1

end Sys2Proof.Config
end

