-- ==== Sys2Proof/Syntax.lean ====
section
/-! DEFINITION. The instruction set: one constructor per row of the opcode map (spec/30_encoding.md R50), in its order.
The fields are those of R47: `x`, `y` registers, `kk` an 8-bit immediate, `nnn` a 12-bit address immediate, `n` a row
count. -/

namespace Sys2Proof

/-- The 34 instructions of R50 (R52). An instruction's encoding pattern, its primary name, opens each docstring. -/
inductive Instr where
  /-- 00E0, CLS: clear the display (R110). -/
  | cls
  /-- 00EE, RET: return from a call (R71). -/
  | ret
  /-- 1nnn, JP nnn: jump (R72). -/
  | jp (nnn : Addr)
  /-- 2nnn, CALL nnn: call (R73). -/
  | call (nnn : Addr)
  /-- 3xkk, SE Vx, kk: skip if equal (R74). -/
  | seImm (x : Reg) (kk : Byte)
  /-- 4xkk, SNE Vx, kk: skip if not equal (R75). -/
  | sneImm (x : Reg) (kk : Byte)
  /-- 5xy0, SE Vx, Vy: skip if equal (R76). -/
  | seReg (x y : Reg)
  /-- 9xy0, SNE Vx, Vy: skip if not equal (R77). -/
  | sneReg (x y : Reg)
  /-- 6xkk, LD Vx, kk: load immediate (R82). -/
  | ldImm (x : Reg) (kk : Byte)
  /-- 7xkk, ADD Vx, kk: add immediate, no flag (R83). -/
  | addImm (x : Reg) (kk : Byte)
  /-- 8xy0, LD Vx, Vy: move (R84). -/
  | ldReg (x y : Reg)
  /-- 8xy1, OR Vx, Vy (R85). -/
  | orReg (x y : Reg)
  /-- 8xy2, AND Vx, Vy (R86). -/
  | andReg (x y : Reg)
  /-- 8xy3, XOR Vx, Vy (R87). -/
  | xorReg (x y : Reg)
  /-- 8xy4, ADD Vx, Vy: add with carry into VF (R88). -/
  | addReg (x y : Reg)
  /-- 8xy5, SUB Vx, Vy: subtract, VF from the strict comparison (R89). -/
  | subReg (x y : Reg)
  /-- 8xy6, SHR Vx: shift right by one; `y` is in the encoding and ignored (R49, R90). -/
  | shr (x y : Reg)
  /-- 8xy7, SUBN Vx, Vy: reversed subtract (R91). -/
  | subnReg (x y : Reg)
  /-- 8xyE, SHL Vx: shift left by one; `y` is in the encoding and ignored (R49, R92). -/
  | shl (x y : Reg)
  /-- Annn, LD I, nnn: load the index register (R101). -/
  | ldI (nnn : Addr)
  /-- Bnnn, JP V0, nnn: computed jump (R78). -/
  | jpV0 (nnn : Addr)
  /-- Cxkk, RND Vx, kk: random byte AND kk (R93). -/
  | rnd (x : Reg) (kk : Byte)
  /-- Dxyn, DRW Vx, Vy, n: draw an n-row sprite (R111). -/
  | drw (x y : Reg) (n : Nat)
  /-- Ex9E, SKP Vx: skip if the key is pressed (R120). -/
  | skp (x : Reg)
  /-- ExA1, SKNP Vx: skip if the key is not pressed (R121). -/
  | sknp (x : Reg)
  /-- Fx07, LD Vx, DT: read the delay timer (R123). -/
  | ldVxDt (x : Reg)
  /-- Fx0A, LD Vx, K: wait for a key (R122). -/
  | ldVxK (x : Reg)
  /-- Fx15, LD DT, Vx: set the delay timer (R124). -/
  | ldDtVx (x : Reg)
  /-- Fx18, LD ST, Vx: set the sound timer (R125). -/
  | ldStVx (x : Reg)
  /-- Fx1E, ADD I, Vx (R102). -/
  | addI (x : Reg)
  /-- Fx29, LD F, Vx: address of a font glyph (R103). -/
  | ldF (x : Reg)
  /-- Fx33, LD B, Vx: decimal digits to memory (R104). -/
  | ldB (x : Reg)
  /-- Fx55, LD [I], Vx: store V0 to Vx (R105). -/
  | stRegs (x : Reg)
  /-- Fx65, LD Vx, [I]: load V0 to Vx (R106). -/
  | ldRegs (x : Reg)
  deriving DecidableEq, Repr

end Sys2Proof
end

