-- ==== Sys2Proof/WellFormed.lean ====
section
/-! DEFINITION. What an instruction and a program image must satisfy beyond their types. The types already bound `x`,
`y`, `kk` and `nnn` to the widths of spec/30_encoding.md R47; the row count of Dxyn is a number and is bounded here. -/

namespace Sys2Proof

/-- The fields fit the encoding (R47): `n` of Dxyn is 0 to 15; there is no 16-row form (R111 (e)). -/
def Instr.wellFormed : Instr → Bool
  | .drw _ _ n => decide (n < 16)
  | .cls | .ret | .jp _ | .call _ | .seImm _ _ | .sneImm _ _ | .seReg _ _ | .sneReg _ _ | .ldImm _ _ | .addImm _ _ => true
  | .ldReg _ _ | .orReg _ _ | .andReg _ _ | .xorReg _ _ | .addReg _ _ | .subReg _ _ | .shr _ _ | .subnReg _ _ => true
  | .shl _ _ | .ldI _ | .jpV0 _ | .rnd _ _ | .skp _ | .sknp _ | .ldVxDt _ | .ldVxK _ | .ldDtVx _ | .ldStVx _ => true
  | .addI _ | .ldF _ | .ldB _ | .stRegs _ | .ldRegs _ => true

/-- A program image LOAD accepts: `program length + 512 ≤ 4096` (R163). -/
def imageWellFormed (image : List Byte) : Bool := decide (image.length ≤ Config.maxProg)

end Sys2Proof
end

