-- ==== Sys2Proof/Machine/State.lean ====
section
/-! DEFINITION. The state of the block, all that spec/10_state.md R10 lists (R24: there is no other), the reasons a step
can stop, and the state after reset (R25). -/

namespace Sys2Proof.Machine

/-- MEM: the cells that differ from what an unlisted address reads as, addresses strictly rising (R17). -/
abbrev Memory := List Host.Cell

/-- FB: 32 rows of 64 one-bit cells. Cell `k` of the flat bitmap is bit `k mod 64` of row `k div 64` (R18). -/
abbrev Display := Vector (BitVec 64) 32

/-- CAUSE, the 3-bit register that names the fatal fault taken (R23). The codes 6 and 7 are never written and are no
values of this type; `causeCode` gives the 3 bits. -/
inductive Cause where
  /-- 0: no fault taken. -/
  | none
  /-- 1, F_FETCH_OOB: a fetch with PC ≥ 0x0FFF (R131). -/
  | fetchOob
  /-- 2, F_DATA_OOB: a data access above 0xFFF (R132). -/
  | dataOob
  /-- 3, F_STACK_OVERFLOW: 2nnn with SP = 16 (R133). -/
  | stackOverflow
  /-- 4, F_STACK_UNDERFLOW: 00EE with SP = 0 (R134). -/
  | stackUnderflow
  /-- 5, F_KEY_INDEX: Ex9E or ExA1 with Vx > 15 (R135). -/
  | keyIndex
  deriving DecidableEq, Repr

/-- The machine's state (R10), plain data. -/
structure State where
  /-- V[0..15], the general registers; V[15] is the flag register VF (R11, R12). -/
  v : Vector Byte 16
  /-- I, the index register, never masked to 12 bits (R13). -/
  i : Word
  /-- PC, the address of the next instruction to fetch, never masked to 12 bits (R14). -/
  pc : Word
  /-- SP, the number of return addresses on the stack (R15). -/
  sp : Byte
  /-- STACK[0..15], the return addresses (R16). -/
  stack : Vector Word 16
  /-- MEM[0x000..0xFFF] (R17). -/
  mem : Memory
  /-- FB[0..2047], the display (R18). -/
  fb : Display
  /-- DIRTY (R19). -/
  dirty : Bool
  /-- DT, the delay timer (R20). -/
  dt : Byte
  /-- ST, the sound timer (R21). -/
  st : Byte
  /-- KEY[0..15], true when pressed (R22). -/
  key : Vector Bool 16
  /-- HALT: the core has taken a fatal fault (R23). -/
  halt : Bool
  /-- CAUSE: which fatal fault (R23). -/
  cause : Cause
  /-- THE MODEL'S OWN, not the spec's (assumption 2): how many random bytes have been drawn. It only names the free value
  `Config.rnd draws` that the next Cxkk takes as the STEP's `rnd` input. -/
  draws : Nat
  deriving DecidableEq, Repr

/-- Why the machine stops outside what the spec describes. The five fatal faults of R130 are no such stop: their entry is
described (R136), so they lead to a next state with HALT set. -/
inductive Fault where
  /-- Raised by 2nnn and 00EE when SP holds 17 to 255, values that no run reaches and to which R15 gives no slot
  (assumption 6). Safe: the model stops where the spec is silent. -/
  | stackPointerOutOfRange (sp : Byte)
  deriving DecidableEq, Repr

/-- Why an instruction has no meaning here. -/
inductive Refusal where
  /-- An instruction without a meaning yet, by its mnemonic; no arm of `exec` answers it now. Safe. -/
  | notModelled (mnemonic : String)
  deriving DecidableEq, Repr

/-- The state after RESET and after power-on: all zero, but PC = 0x0200 and the font table, which is what unlisted
addresses read as (R25, R160, R161). -/
def State.reset : State where
  v := Vector.replicate 16 0x00
  i := 0x0000
  pc := 0x0200
  sp := 0x00
  stack := Vector.replicate 16 0x0000
  mem := []
  fb := Vector.replicate 32 0
  dirty := false
  dt := 0x00
  st := 0x00
  key := Vector.replicate 16 false
  halt := false
  cause := .none
  draws := 0

end Sys2Proof.Machine
end

