-- ==== Sys2Proof/Machine/Ops.lean ====
section
/-! DEFINITION. The named operations over memory, registers, stack, display, timers and keys, taking a fatal fault (the
block's one exception) and the random draw. Every meaning goes through these. -/

namespace Sys2Proof.Machine

/-- The answer of a meaning. -/
abbrev Answer := Host.Outcome State Fault Refusal

/-! ## Memory (spec/20_memory.md) -/

/-- What an address that memory does not list reads as: the reset contents, FONT below 80 and 0x00 elsewhere (R17). -/
def unlistedByte (a : Nat) : Byte := if a < Config.fontSize then Config.fontByte a else 0x00

/-- MemRead(a, 1) (spec/00_scope.md section 6); callers keep `a` in 0x000 to 0xFFF. -/
def Memory.read : Memory → Nat → Byte
  | [], a => unlistedByte a
  | (b, v) :: m, a => if a = b then v else Memory.read m a

/-- List the cell at `a` with value `v`, keeping addresses rising. -/
def Memory.put : Memory → Nat → Byte → Memory
  | [], a, v => [(a, v)]
  | (b, w) :: m, a, v =>
    if a < b then (a, v) :: (b, w) :: m
    else if a = b then (a, v) :: m
    else (b, w) :: Memory.put m a v

/-- Stop listing the cell at `a`. -/
def Memory.drop (m : Memory) (a : Nat) : Memory := m.filter (fun c => c.1 != a)

/-- MemWrite(a, 1, v), in the canonical form: a cell equal to its unlisted value is not listed. -/
def Memory.write (m : Memory) (a : Nat) (v : Byte) : Memory :=
  if v = unlistedByte a then m.drop a else m.put a v

/-- Write bytes at ascending addresses from `a` (R32). -/
def Memory.writeBytes : Memory → Nat → List Byte → Memory
  | m, _, [] => m
  | m, a, b :: bs => Memory.writeBytes (m.write a b) (a + 1) bs

/-- The bytes at `count` ascending addresses from `a` (R32). -/
def Memory.readBytes (m : Memory) (a count : Nat) : List Byte := (List.range count).map (fun k => m.read (a + k))

/-- The canonical form: addresses strictly rising and inside MEM, no cell equal to its unlisted value. -/
def Memory.wf : Memory → Bool
  | [] => true
  | (a, v) :: m => decide (a < Config.memSize) && decide (v ≠ unlistedByte a) && m.all (fun c => decide (a < c.1)) && Memory.wf m

/-! ## Registers (spec/10_state.md R11 to R16) -/

/-- `V[x]`. -/
def State.getV (s : State) (x : Reg) : Byte := s.v[x.val]

/-- `V[x] <- b`. -/
def State.setV (s : State) (x : Reg) (b : Byte) : State := { s with v := s.v.set x.val b }

/-- The index of the flag register VF (R12). -/
def flagReg : Reg := 15

/-- `V[15] <- b` (R12). -/
def State.setFlag (s : State) (b : Byte) : State := s.setV flagReg b

/-- `I <- a`. -/
def State.setI (s : State) (a : Word) : State := { s with i := a }

/-- `PC <- a`. -/
def State.setPc (s : State) (a : Word) : State := { s with pc := a }

/-- `PC <- PC + k`: the default advance with 2, a skip with 4 (R64). -/
def State.advance (s : State) (k : Nat) : State := { s with pc := s.pc + BitVec.ofNat 16 k }

/-- The conditional skip: PC + 4 if the condition holds, else PC + 2 (R64). -/
def State.skipIf (s : State) (c : Bool) : State := if c then s.advance 4 else s.advance 2

/-- Replace the whole of MEM. -/
def State.setMem (s : State) (m : Memory) : State := { s with mem := m }

/-- `DT <- b`. -/
def State.setDt (s : State) (b : Byte) : State := { s with dt := b }

/-- `ST <- b`. -/
def State.setSt (s : State) (b : Byte) : State := { s with st := b }

/-! ## Fatal faults (spec/60_exceptions.md section 3) -/

/-- The 3-bit code of a cause (R23). -/
def causeCode : Cause → BitVec 3
  | .none => 0
  | .fetchOob => 1
  | .dataOob => 2
  | .stackOverflow => 3
  | .stackUnderflow => 4
  | .keyIndex => 5

/-- `raise Fault(c)`, the whole of taking a fault: from the state before the instruction, HALT and CAUSE are set and
nothing else changes; control goes nowhere (R136). There is no return from a fault; RESET is the only exit (R137). -/
def State.raise (s : State) (c : Cause) : State := { s with halt := true, cause := c }

/-! ## The call stack (R15, R16, R71, R73) -/

/-- Push `a` and go to `target`; a full stack raises F_STACK_OVERFLOW before any write (R73, R133). -/
def State.push (s : State) (a target : Word) : Answer :=
  if h : s.sp.toNat < 16 then
    .next { s with stack := s.stack.set s.sp.toNat a, sp := s.sp + 1, pc := target }
  else if s.sp = 16 then .next (s.raise .stackOverflow)
  else .fault (.stackPointerOutOfRange s.sp)

/-- Pop a return address and go to the instruction after it; an empty stack raises F_STACK_UNDERFLOW before any write.
The popped slot keeps its value (R16, R71, R134). -/
def State.pop (s : State) : Answer :=
  if s.sp = 0 then .next (s.raise .stackUnderflow)
  else if h : s.sp.toNat - 1 < 16 then
    .next { s with sp := s.sp - 1, pc := s.stack[s.sp.toNat - 1] + 2 }
  else .fault (.stackPointerOutOfRange s.sp)

/-! ## The display (spec/10_state.md R18, R19) -/

/-- `FB[k]`; false beyond the 2048 cells. -/
def Display.cell (d : Display) (k : Nat) : Bool :=
  if h : k / 64 < 32 then d[k / 64].getLsbD (k % 64) else false

/-- `FB[k] <- FB[k] ^ 1` when `k ≤ 2047`, nothing beyond (R111 (c)). -/
def Display.flip (d : Display) (k : Nat) : Display :=
  if h : k / 64 < 32 then
    d.set (k / 64) (d[k / 64] ^^^ BitVec.twoPow 64 (k % 64))
  else d

/-- Every cell off. -/
def Display.blank : Display := Vector.replicate 32 0

/-- Replace FB and set DIRTY, as 00E0 and Dxyn do (R19). -/
def State.redraw (s : State) (d : Display) : State := { s with fb := d, dirty := true }

/-! ## Keys (spec/10_state.md R22) -/

/-- `KEY[k]`. -/
def State.keyDown (s : State) (k : Key) : Bool := s.key[k.val]

/-- The set of pressed keys, ascending (R122). -/
def State.pressed (s : State) : List Key := (List.finRange 16).filter s.keyDown

/-- KeyPick with the choice `c`: a member of a non-empty set, nothing for the empty one. One pressed key is picked
whatever the choice (R122 (c)). -/
def pickWith (c : List Key → Nat) : List Key → Option Key
  | [] => none
  | [k] => some k
  | k :: l :: ks => (k :: l :: ks)[c (k :: l :: ks) % (k :: l :: ks).length]?

/-- The parameter KeyPick (assumption 3). -/
def keyPick (pressed : List Key) : Option Key := pickWith Config.keyChoice pressed

/-! ## The random input (spec/60_exceptions.md R150) -/

/-- The `rnd` input of this STEP (assumption 2). -/
def State.rndByte (s : State) : Byte := Config.rnd s.draws

/-- The next draw is another free value. -/
def State.countDraw (s : State) : State := { s with draws := s.draws + 1 }

/-! ## The timer update (spec/40_step_cycle.md R65) -/

/-- A timer counts down by one while it is above zero. -/
def countDown (b : Byte) : Byte := if b = 0 then 0 else b - 1

/-- TimerUpdate(): both timers count down. -/
def State.tick (s : State) : State := { s with dt := countDown s.dt, st := countDown s.st }

/-- The timer update emits a tone when ST is exactly 1 before it. -/
def State.toneDue (s : State) : Bool := s.st == 1

/-! ## Fetch (spec/40_step_cycle.md R62) -/

/-- The instruction word at PC, nothing when PC ≥ 0x0FFF (R34). -/
def State.fetch (s : State) : Option Word :=
  if 0x0FFF ≤ s.pc.toNat then none
  else some (wordOfBytes (s.mem.read s.pc.toNat) (s.mem.read (s.pc.toNat + 1)))

/-- Store a word at PC as the hardware stores instruction words, high byte first (R31). -/
def State.placeWord (s : State) (w : Word) : State :=
  if 0x0FFF ≤ s.pc.toNat then s
  else s.setMem (s.mem.writeBytes s.pc.toNat [highByte w, lowByte w])

end Sys2Proof.Machine
end

