-- ==== Sys2Proof/Machine/Flags.lean ====
section
/-! DEFINITION. The flag values of spec/10_state.md R12 and spec/42_alu.md R80: always 0 or 1, from the operands as read
at the start of the instruction. -/

namespace Sys2Proof.Machine

/-- A condition as the byte 0 or 1 that VF receives (R12). -/
def flagByte (c : Bool) : Byte := if c then 1 else 0

/-- The carry out of an addition: 1 if the sum exceeds 255 (R88). -/
def carryFlag (a b : Byte) : Byte := flagByte (decide (255 < a.toNat + b.toNat))

/-- The strict comparison `a > b`; equal operands give 0 (R89, R91, spec/90_conflicts.md C5). -/
def greaterFlag (a b : Byte) : Byte := flagByte (decide (b.toNat < a.toNat))

end Sys2Proof.Machine
end

