-- ==== Sys2Proof/Machine/Operands.lean ====
section
/-! DEFINITION. The operand forms: immediates widened with zeros (spec/30_encoding.md R47), the register block of Fx55
and Fx65, and the one data addressing mode with its bound check (spec/43_index_memory.md R100, spec/20_memory.md R35). -/

namespace Sys2Proof.Machine

/-- `zext_16(nnn)` (R47). -/
def addrWord (nnn : Addr) : Word := nnn.setWidth 16

/-- A byte widened with zeros to 16 bits. -/
def byteWord (b : Byte) : Word := b.setWidth 16

/-- The bytes V[0] to V[x] in ascending order (R105). -/
def State.block (s : State) (x : Reg) : List Byte := s.v.toList.take (x.val + 1)

/-- V[0] to V[x] replaced by the bytes at ascending addresses from `a`, the rest kept (R106). -/
def State.loadBlock (s : State) (x : Reg) (a : Nat) : State :=
  { s with v := Vector.ofFn (fun j : Reg => if j ≤ x then s.mem.read (a + j.val) else s.getV j) }

/-- The three decimal digits of a byte, hundreds first (R104). -/
def decimalDigits (b : Byte) : List Byte :=
  [BitVec.ofNat 8 (b.toNat / 100), BitVec.ofNat 8 (b.toNat / 10 % 10), BitVec.ofNat 8 (b.toNat % 10)]

/-- An access of `count` bytes from I lies inside MEM: its highest address is at most 0xFFF on natural numbers, and no
access cannot fail (R35). -/
def State.dataInBounds (s : State) (count : Nat) : Bool := decide (count = 0 ∨ s.i.toNat + count - 1 ≤ 0xFFF)

/-- The bound check that precedes every access and write of a data instruction: F_DATA_OOB, or go on (R35, R132). -/
def State.guardData (s : State) (count : Nat) (go : State) : Answer :=
  if s.dataInBounds count then .next go else .next (s.raise .dataOob)

/-- The key-index check of Ex9E and ExA1: F_KEY_INDEX when V[x] > 15, else go on with the key (R120, R121, R135). -/
def State.withKeyIndex (s : State) (x : Reg) (go : Key → State) : Answer :=
  if h : (s.getV x).toNat < 16 then .next (go ⟨(s.getV x).toNat, h⟩) else .next (s.raise .keyIndex)

end Sys2Proof.Machine
end

