-- ==== Sys2Proof/Machine/Alu.lean ====
section
/-! DEFINITION. The register and ALU instructions (spec/42_alu.md): operands read first, the result to V[x], then the
flag, where there is one, to V[15] last (R81); the default advance; no fault. -/

namespace Sys2Proof.Machine

/-- `V[x] <- b`, then the default advance. -/
def State.result (s : State) (x : Reg) (b : Byte) : Answer := .next ((s.setV x b).advance 2)

/-- `V[x] <- b`, then `V[15] <- f`, then the default advance (R81). -/
def State.resultFlag (s : State) (x : Reg) (b f : Byte) : Answer := .next (((s.setV x b).setFlag f).advance 2)

/-- 6xkk (R82). -/
def execLdImm (x : Reg) (kk : Byte) (s : State) : Answer := s.result x kk

/-- 7xkk: wraps, no flag (R83). -/
def execAddImm (x : Reg) (kk : Byte) (s : State) : Answer := s.result x (s.getV x + kk)

/-- 8xy0 (R84). -/
def execLdReg (x y : Reg) (s : State) : Answer := s.result x (s.getV y)

/-- 8xy1 (R85). -/
def execOrReg (x y : Reg) (s : State) : Answer := s.result x (s.getV x ||| s.getV y)

/-- 8xy2 (R86). -/
def execAndReg (x y : Reg) (s : State) : Answer := s.result x (s.getV x &&& s.getV y)

/-- 8xy3 (R87). -/
def execXorReg (x y : Reg) (s : State) : Answer := s.result x (s.getV x ^^^ s.getV y)

/-- 8xy4 (R88). -/
def execAddReg (x y : Reg) (s : State) : Answer :=
  s.resultFlag x (s.getV x + s.getV y) (carryFlag (s.getV x) (s.getV y))

/-- 8xy5 (R89). -/
def execSubReg (x y : Reg) (s : State) : Answer :=
  s.resultFlag x (s.getV x - s.getV y) (greaterFlag (s.getV x) (s.getV y))

/-- 8xy6: a logical shift of Vx; `y` is ignored and VF keeps its value (R49, R90). -/
def execShr (x _y : Reg) (s : State) : Answer := s.result x (s.getV x >>> 1)

/-- 8xy7 (R91). -/
def execSubnReg (x y : Reg) (s : State) : Answer :=
  s.resultFlag x (s.getV y - s.getV x) (greaterFlag (s.getV y) (s.getV x))

/-- 8xyE: `y` is ignored and VF keeps its value (R49, R92). -/
def execShl (x _y : Reg) (s : State) : Answer := s.result x (s.getV x <<< 1)

/-- Cxkk on the random byte `r`. -/
def State.resultRandom (s : State) (r : Byte) (x : Reg) (kk : Byte) : Answer := s.countDraw.result x (r &&& kk)

/-- Cxkk: the STEP's random input AND kk (R93). -/
def execRnd (x : Reg) (kk : Byte) (s : State) : Answer := s.resultRandom s.rndByte x kk

end Sys2Proof.Machine
end

