-- ==== Sys2Proof/Machine/ControlFlow.lean ====
section
/-! DEFINITION. The control-flow instructions (spec/41_control_flow.md). -/

namespace Sys2Proof.Machine

/-- 00EE (R71). -/
def execRet (s : State) : Answer := s.pop

/-- 1nnn (R72). -/
def execJp (nnn : Addr) (s : State) : Answer := .next (s.setPc (addrWord nnn))

/-- 2nnn: pushes the address of the 2nnn itself (R73). -/
def execCall (nnn : Addr) (s : State) : Answer := s.push s.pc (addrWord nnn)

/-- 3xkk (R74). -/
def execSeImm (x : Reg) (kk : Byte) (s : State) : Answer := .next (s.skipIf (s.getV x == kk))

/-- 4xkk (R75). -/
def execSneImm (x : Reg) (kk : Byte) (s : State) : Answer := .next (s.skipIf (s.getV x != kk))

/-- 5xy0 (R76). -/
def execSeReg (x y : Reg) (s : State) : Answer := .next (s.skipIf (s.getV x == s.getV y))

/-- 9xy0 (R77). -/
def execSneReg (x y : Reg) (s : State) : Answer := .next (s.skipIf (s.getV x != s.getV y))

/-- Bnnn: the target is nnn + V0 + 2, not masked (R78, spec/90_conflicts.md C7). -/
def execJpV0 (nnn : Addr) (s : State) : Answer := .next (s.setPc (addrWord nnn + byteWord (s.getV 0) + 2))

end Sys2Proof.Machine
end

