-- ==== Sys2Proof/Machine/Display.lean ====
section
/-! DEFINITION. The display instructions (spec/44_display.md). -/

namespace Sys2Proof.Machine

/-- The cell index of the pixel in column `c` of sprite row `r`: unreduced coordinates, no wrap (R111 (b), R113). -/
def pixelIndex (xs ys c r : Nat) : Nat := (xs + c) + 64 * (ys + r)

/-- The cell indices a sprite row addresses: its set bits, bit 7 the leftmost pixel (R111 (a)). -/
def rowPixels (xs ys r : Nat) (b : Byte) : List Nat :=
  ((List.range 8).filter (fun c => b.getLsbD (7 - c))).map (fun c => pixelIndex xs ys c r)

/-- The cell indices the sprite rows address, in the order of R111's loops, from row `r` on. -/
def spritePixels (xs ys : Nat) : Nat → List Byte → List Nat
  | _, [] => []
  | r, b :: bs => rowPixels xs ys r b ++ spritePixels xs ys (r + 1) bs

/-- The inner body of R111: a lit cell is a hit, and the cell is flipped; a cell index beyond 2047 is skipped. -/
def drawPixel (p : Display × Bool) (k : Nat) : Display × Bool :=
  if k ≤ 2047 then (p.1.flip k, p.2 || p.1.cell k) else p

/-- XOR the pixels into the display; the second component says whether any cell went from 1 to 0. -/
def drawPixels (d : Display) (ks : List Nat) : Display × Bool := ks.foldl drawPixel (d, false)

/-- The display and the collision after drawing the `n` sprite rows at I with the corner at (`xs`, `ys`). -/
def State.drawn (s : State) (xs ys : Byte) (n : Nat) : Display × Bool :=
  drawPixels s.fb (spritePixels xs.toNat ys.toNat 0 (s.mem.readBytes s.i.toNat n))

/-- 00E0 (R110). -/
def execCls (s : State) : Answer := .next ((s.redraw Display.blank).advance 2)

/-- Dxyn: both coordinates read before any write, VF last, DIRTY always (R111). -/
def execDrw (x y : Reg) (n : Nat) (s : State) : Answer :=
  s.guardData n
    (((s.redraw (s.drawn (s.getV x) (s.getV y) n).1).setFlag (flagByte (s.drawn (s.getV x) (s.getV y) n).2)).advance 2)

end Sys2Proof.Machine
end

