-- ==== Sys2Proof/Machine/IndexMemory.lean ====
section
/-! DEFINITION. The index-register and memory instructions (spec/43_index_memory.md). -/

namespace Sys2Proof.Machine

/-- `I <- (I + x + 1) mod 65536`, the post-increment of Fx55 and Fx65. -/
def State.bumpI (s : State) (x : Reg) : State := s.setI (s.i + BitVec.ofNat 16 (x.val + 1))

/-- Annn (R101). -/
def execLdI (nnn : Addr) (s : State) : Answer := .next ((s.setI (addrWord nnn)).advance 2)

/-- Fx1E: wraps at 65536, no flag (R102). -/
def execAddI (x : Reg) (s : State) : Answer := .next ((s.setI (s.i + byteWord (s.getV x))).advance 2)

/-- Fx29: the whole byte times 5 (R103). -/
def execLdF (x : Reg) (s : State) : Answer := .next ((s.setI (byteWord (s.getV x) * 5)).advance 2)

/-- Fx33: three bytes from I; I is kept (R104). -/
def execLdB (x : Reg) (s : State) : Answer :=
  s.guardData 3 ((s.setMem (s.mem.writeBytes s.i.toNat (decimalDigits (s.getV x)))).advance 2)

/-- Fx55: V0 to Vx from I; I moves past the block (R105). -/
def execStRegs (x : Reg) (s : State) : Answer :=
  s.guardData (x.val + 1) (((s.setMem (s.mem.writeBytes s.i.toNat (s.block x))).bumpI x).advance 2)

/-- Fx65: V0 to Vx from MEM at I; I moves past the block (R106). -/
def execLdRegs (x : Reg) (s : State) : Answer :=
  s.guardData (x.val + 1) (((s.loadBlock x s.i.toNat).bumpI x).advance 2)

end Sys2Proof.Machine
end

