-- ==== Sys2Proof/Machine/KeysTimers.lean ====
section
/-! DEFINITION. The key and timer instructions (spec/45_keys_timers.md). -/

namespace Sys2Proof.Machine

/-- Ex9E (R120). -/
def execSkp (x : Reg) (s : State) : Answer := s.withKeyIndex x (fun k => s.skipIf (s.keyDown k))

/-- ExA1 (R121). -/
def execSknp (x : Reg) (s : State) : Answer := s.withKeyIndex x (fun k => s.skipIf (!s.keyDown k))

/-- Fx07 (R123). -/
def execLdVxDt (x : Reg) (s : State) : Answer := .next ((s.setV x s.dt).advance 2)

/-- Fx0A: with no key pressed nothing is written and PC stays; else V[x] receives the picked key's index (R122). -/
def execLdVxK (x : Reg) (s : State) : Answer :=
  match keyPick s.pressed with
  | none => .next s
  | some k => .next ((s.setV x (BitVec.ofNat 8 k.val)).advance 2)

/-- Fx15 (R124). -/
def execLdDtVx (x : Reg) (s : State) : Answer := .next ((s.setDt (s.getV x)).advance 2)

/-- Fx18 (R125). -/
def execLdStVx (x : Reg) (s : State) : Answer := .next ((s.setSt (s.getV x)).advance 2)

end Sys2Proof.Machine
end

