-- ==== Sys2Proof/Machine/Cycle.lean ====
section
/-! DEFINITION. The STEP transaction (spec/40_step_cycle.md R60): halt test, fetch, decode, execute, timer update, with
its three outputs (R67). The outputs belong to the one STEP and are no state (spec/10_state.md R24 (d)). -/

namespace Sys2Proof.Machine

/-- The `status` output (R67). -/
inductive Status where
  /-- OK. -/
  | ok
  /-- FAULT(c). -/
  | fault (c : Cause)
  deriving DecidableEq, Repr

/-- The outputs of one STEP (R67). -/
structure StepOutput where
  status : Status
  tone : Bool
  diag : Option Word
  deriving DecidableEq, Repr

/-- A STEP that raised a fault or started halted: no tone, no diagnostic (R61, R136). -/
def faultOutput (c : Cause) : StepOutput := ⟨.fault c, false, none⟩

/-- The end of a STEP that neither faulted nor started halted: the timer update and its tone (R65). -/
def State.finish (s : State) (diag : Option Word) : State × StepOutput := (s.tick, ⟨.ok, s.toneDue, diag⟩)

/-- An unrecognized word: the default advance, the timer update, the diagnostic (R66). -/
def State.skipUnrecognized (s : State) (w : Word) : State × StepOutput := (s.advance 2).finish (some w)

/-- Close the STEP on what the instruction answered: a fatal fault ends it at once, else the timers tick (R60). -/
def closeStep : Answer → Host.Outcome (State × StepOutput) Fault Refusal
  | .next t => if t.halt then .next (t, faultOutput t.cause) else .next (t.finish none)
  | .fault r => .fault r
  | .refused r => .refused r

/-- STEP: the next state and the outputs (R60, R61, R62, R66). -/
def cycle (s : State) : Host.Outcome (State × StepOutput) Fault Refusal :=
  if s.halt then .next (s, faultOutput s.cause)
  else
    match s.fetch with
    | none => .next (s.raise .fetchOob, faultOutput .fetchOob)
    | some w =>
      match decodeWord w with
      | .error _ => .next (s.skipUnrecognized w)
      | .ok i => closeStep (exec i s)

/-- The next state of a STEP, without its outputs. -/
def stateOf : Host.Outcome (State × StepOutput) Fault Refusal → Answer
  | .next p => .next p.1
  | .fault r => .fault r
  | .refused r => .refused r

end Sys2Proof.Machine
end

