-- ==== Sys2Proof/Machine/Step.lean ====
section
/-! DEFINITION. One step of the machine, and an instruction word placed where the next step fetches. -/

namespace Sys2Proof.Machine

/-- One STEP transaction (spec/40_step_cycle.md R60); its outputs are `cycle`'s. -/
def step (s : State) : Host.Outcome State Fault Refusal := stateOf (cycle s)

/-- `s` with the instruction of an opcode-table row stored at PC, high byte first; nothing else changes. -/
def State.withFetchWord (s : State) (nbits w : Nat) : State := s.placeWord (BitVec.ofNat 16 (w % 2 ^ nbits))

end Sys2Proof.Machine
end

