-- ==== Sys2Proof/Machine/Transactions.lean ====
section
/-! DEFINITION. The host's seven transactions (spec/00_scope.md R3): RESET and LOAD of spec/70_reset_and_hazards.md, the
others of spec/60_exceptions.md section 8, and STEP. Each is atomic; their order is the host's choice (R4). -/

namespace Sys2Proof.Machine

/-- RESET: every piece of the spec's state takes its reset value; the count of random draws goes on, so that RESET
repeats no draw (R160, assumption 2). -/
def hostReset (s : State) : State := { State.reset with draws := s.draws }

/-- LOAD(bytes): nothing for `LoadError::TooLarge`, else the bytes written from 0x200 on and nothing else (R163, R164). -/
def hostLoad (s : State) (image : List Byte) : Option State :=
  if imageWellFormed image then some (s.setMem (s.mem.writeBytes Config.progBase image)) else none

/-- SETKEY(k, p) (R146). -/
def hostSetKey (s : State) (k : Key) (p : Bool) : State := { s with key := s.key.set k.val p }

/-- FB_READ: the 2048 cells in index order (R147). -/
def hostFbRead (s : State) : List Bool := (List.range 2048).map s.fb.cell

/-- DIRTY_CONSUME: the flag, then cleared (R148). -/
def hostDirtyConsume (s : State) : State × Bool := ({ s with dirty := false }, s.dirty)

/-- ST_SAMPLE (R149). -/
def hostStSample (s : State) : Byte := s.st

/-- What the host can issue (R3). -/
inductive Transaction where
  /-- RESET. -/
  | reset
  /-- LOAD(bytes). -/
  | load (image : List Byte)
  /-- STEP. -/
  | step
  /-- SETKEY(k, p). -/
  | setKey (k : Key) (p : Bool)
  /-- FB_READ. -/
  | fbRead
  /-- DIRTY_CONSUME. -/
  | dirtyConsume
  /-- ST_SAMPLE. -/
  | stSample
  deriving DecidableEq, Repr

/-- What a transaction returns (R3). -/
inductive Response where
  /-- Nothing is returned. -/
  | done
  /-- LOAD's `ok` (true) or `LoadError::TooLarge` (false). -/
  | loaded (ok : Bool)
  /-- STEP's outputs. -/
  | stepped (o : StepOutput)
  /-- FB_READ's cells. -/
  | cells (bits : List Bool)
  /-- DIRTY_CONSUME's bit. -/
  | dirty (b : Bool)
  /-- ST_SAMPLE's byte. -/
  | sample (b : Byte)
  deriving DecidableEq, Repr

/-- LOAD with its result: a refused load changes nothing (R139, R163). -/
def loadOutcome (s : State) (image : List Byte) : State × Response :=
  match hostLoad s image with
  | some t => (t, .loaded true)
  | none => (s, .loaded false)

/-- STEP with its outputs as a response. -/
def stepOutcome : Host.Outcome (State × StepOutput) Fault Refusal → Host.Outcome (State × Response) Fault Refusal
  | .next p => .next (p.1, .stepped p.2)
  | .fault r => .fault r
  | .refused r => .refused r

/-- One transaction. -/
def transact (t : Transaction) (s : State) : Host.Outcome (State × Response) Fault Refusal :=
  match t with
  | .reset => .next (hostReset s, .done)
  | .load image => .next (loadOutcome s image)
  | .step => stepOutcome (cycle s)
  | .setKey k p => .next (hostSetKey s k p, .done)
  | .fbRead => .next (s, .cells (hostFbRead s))
  | .dirtyConsume => .next ((hostDirtyConsume s).1, .dirty (hostDirtyConsume s).2)
  | .stSample => .next (s, .sample (hostStSample s))

end Sys2Proof.Machine
end

