-- ==== Sys2Proof/Safety.lean ====
section
/-! DEFINITION. The terms claims are made in: what an instruction leaves unchanged, the invariant of every reachable state
(spec/10_state.md R26), runs of transactions with the outputs they return, and what counts as a clean run. -/

namespace Sys2Proof.Machine

/-- The pieces of state other than the general registers (R10), and the model's own count of draws. -/
inductive Piece where
  | i
  | pc
  | sp
  | stack
  | mem
  | fb
  | dirty
  | dt
  | st
  | key
  | halt
  | cause
  | draws
  deriving DecidableEq, Repr

/-- The frame: `t` agrees with `s` on every general register outside `regs` and on every piece of state outside `pieces`.
Memory agrees when every byte reads the same. -/
def KeepsBut (pieces : List Piece) (regs : List Reg) (s t : State) : Prop :=
  (∀ r, r ∉ regs → t.getV r = s.getV r) ∧
  (.i ∉ pieces → t.i = s.i) ∧
  (.pc ∉ pieces → t.pc = s.pc) ∧
  (.sp ∉ pieces → t.sp = s.sp) ∧
  (.stack ∉ pieces → t.stack = s.stack) ∧
  (.mem ∉ pieces → ∀ a, t.mem.read a = s.mem.read a) ∧
  (.fb ∉ pieces → t.fb = s.fb) ∧
  (.dirty ∉ pieces → t.dirty = s.dirty) ∧
  (.dt ∉ pieces → t.dt = s.dt) ∧
  (.st ∉ pieces → t.st = s.st) ∧
  (.key ∉ pieces → t.key = s.key) ∧
  (.halt ∉ pieces → t.halt = s.halt) ∧
  (.cause ∉ pieces → t.cause = s.cause) ∧
  (.draws ∉ pieces → t.draws = s.draws)

/-- The next STEP fetches and executes `i`: the core is not halted and the word at PC decodes to it (R60). -/
def Runs (s : State) (i : Instr) : Prop := s.halt = false ∧ ∃ w, s.fetch = some w ∧ decodeWord w = .ok i

/-- The fatal fault an instruction raises in a state, the conditions of R132 to R135; no other instruction raises one
(R130, R141). -/
def faultDue (i : Instr) (s : State) : Option Cause :=
  match i with
  | .call _ => if s.sp.toNat = 16 then some .stackOverflow else none
  | .ret => if s.sp.toNat = 0 then some .stackUnderflow else none
  | .drw _ _ n => if n ≠ 0 ∧ 0xFFF < s.i.toNat + n - 1 then some .dataOob else none
  | .ldB _ => if 0xFFF < s.i.toNat + 2 then some .dataOob else none
  | .stRegs x | .ldRegs x => if 0xFFF < s.i.toNat + x.val then some .dataOob else none
  | .skp x | .sknp x => if 15 < (s.getV x).toNat then some .keyIndex else none
  | .cls | .jp _ | .seImm _ _ | .sneImm _ _ | .seReg _ _ | .sneReg _ _ | .ldImm _ _ | .addImm _ _ | .ldReg _ _ => none
  | .orReg _ _ | .andReg _ _ | .xorReg _ _ | .addReg _ _ | .subReg _ _ | .shr _ _ | .subnReg _ _ | .shl _ _ => none
  | .ldI _ | .jpV0 _ | .rnd _ _ | .ldVxDt _ | .ldVxK _ | .ldDtVx _ | .ldStVx _ | .addI _ | .ldF _ => none

/-- The invariant of every reachable state (R26); its last clause is the model's own, the canonical form of memory
(assumption 8). -/
abbrev State.Inv (s : State) : Prop :=
  s.sp.toNat ≤ 16 ∧ s.pc.toNat ≤ 0x1100 ∧ (∀ j : Fin 16, j.val < s.sp.toNat → s.stack[j.val].toNat ≤ 0xFFE) ∧
  (s.cause = .none ↔ s.halt = false) ∧ s.mem.wf = true

/-- The states that transactions reach from power-on. The free draws may start anywhere (R26, R161, assumption 2). -/
inductive Reachable : State → Prop where
  /-- Power-on leaves the reset state. -/
  | powerOn (n : Nat) : Reachable { State.reset with draws := n }
  /-- One more transaction of the host's choice. -/
  | transaction {s t : State} {a : Transaction} {r : Response} (h : Reachable s) (e : transact a s = .next (t, r)) : Reachable t

/-- Put a response in front of the responses of the rest of a run. -/
def prependResponse (r : Response) :
    Host.Outcome (State × List Response) Fault Refusal → Host.Outcome (State × List Response) Fault Refusal
  | .next (s, rs) => .next (s, r :: rs)
  | .fault f => .fault f
  | .refused f => .refused f

/-- A host schedule run to its end, with the history of every response, diagnostics included (R4, R66). -/
def runSchedule : List Transaction → State → Host.Outcome (State × List Response) Fault Refusal
  | [], s => .next (s, [])
  | a :: rest, s =>
    match transact a s with
    | .next (t, r) => prependResponse r (runSchedule rest t)
    | .fault f => .fault f
    | .refused f => .refused f

/-- A response that reports neither a fatal fault, nor an unrecognized word, nor a refused load (R130). -/
def Response.clean : Response → Bool
  | .stepped o => o.status == .ok && o.diag.isNone
  | .loaded ok => ok
  | .done | .cells _ | .dirty _ | .sample _ => true

/-- A clean run of a schedule: it ends, and every response is clean. -/
def CleanRun (schedule : List Transaction) (s : State) : Prop :=
  ∃ t rs, runSchedule schedule s = .next (t, rs) ∧ rs.all Response.clean = true

/-- A settled state: PC at a jump to itself, timers at 0, not halted (R166). -/
def State.Settled (s : State) : Prop :=
  s.dt = 0 ∧ s.st = 0 ∧ ∃ nnn : Addr, addrWord nnn = s.pc ∧ Runs s (.jp nnn)

/-- The sprite of `n` rows at I with its corner at (`xs`, `ys`) has a set bit on cell `k` (R111, R113). -/
def SpriteCovers (s : State) (xs ys n k : Nat) : Prop :=
  ∃ r < n, ∃ c < 8, (s.mem.read (s.i.toNat + r)).getLsbD (7 - c) = true ∧ k = xs + c + 64 * (ys + r)

end Sys2Proof.Machine
end

