-- ==== Sys2Proof/Certificates/Slice0/Obligations.lean ====
section
/-! DEFINITION. The statements for the provers. Each names the rule of spec/ it formalises, or the sections it rests on;
OBLIGATIONS.json says the same of each in words. -/

namespace Sys2Proof

/-! The encodings as the instruction rules print them: `base | x<<8 | y<<4 | n` and the like. -/

/-- `base | nnn`. -/
def wordNNN (base : Word) (nnn : Addr) : Word := base ||| nnn.setWidth 16

/-- `base | x<<8`. -/
def wordX (base : Word) (x : Reg) : Word := base ||| BitVec.ofNat 16 x.val <<< 8

/-- `base | x<<8 | kk`. -/
def wordXKK (base : Word) (x : Reg) (kk : Byte) : Word := base ||| BitVec.ofNat 16 x.val <<< 8 ||| kk.setWidth 16

/-- `base | x<<8 | y<<4 | n`; with `n = 0`, `base | x<<8 | y<<4`. -/
def wordXYN (base : Word) (x y : Reg) (n : Nat) : Word :=
  base ||| BitVec.ofNat 16 x.val <<< 8 ||| BitVec.ofNat 16 y.val <<< 4 ||| BitVec.ofNat 16 n

end Sys2Proof

open Sys2Proof Sys2Proof.Machine

/-! ## Decoding (spec/30_encoding.md) -/

/-- Sections 2 to 4: no bit of an encoding is dropped, for every instruction at every value its encoding admits. -/
def Obligations.DecodeInvertsEncode : Prop :=
  ∀ i : Instr, i.wellFormed = true → decodeWord (encode i) = .ok i

/-- Sections 3 and 4: a recognized word is the encoding of exactly the instruction it decodes to, which is well-formed. -/
def Obligations.EncodeInvertsDecode : Prop :=
  ∀ (w : Word) (i : Instr), decodeWord w = .ok i → i.wellFormed = true ∧ encode i = w

/-- Section 4: a word decodes to an instruction of a row exactly when its masked bits are the row's pattern, and is
unrecognized exactly when no row matches. -/
def Obligations.DecodeFollowsMatchAndMask : Prop :=
  ∀ w : Word,
    (∀ r ∈ opcodeMap, (w &&& r.mask = r.pattern ↔ ∃ i, decodeWord w = .ok i ∧ opcodeRow i = r)) ∧
    ((∃ e, decodeWord w = .error e) ↔ ∀ r ∈ opcodeMap, w &&& r.mask ≠ r.pattern)

/-- Section 3: the opcode map lists 34 different rows, and they are disjoint, so no word is two instructions. -/
def Obligations.NoWordMatchesTwoRows : Prop :=
  opcodeMap.length = 34 ∧ opcodeMap.Nodup ∧
  ∀ (w : Word) (r q : OpcodeRow), r ∈ opcodeMap → q ∈ opcodeMap → w &&& r.mask = r.pattern → w &&& q.mask = q.pattern → r = q

/-- Section 5: the unrecognized words are exactly the six rows of its table, each refused by the row's name. -/
def Obligations.UnrecognizedWordsByFamily : Prop :=
  ∀ (w : Word) (e : Reject), decodeWord w = .error e ↔
    (e = .family0 ∧ w.toNat / 4096 = 0 ∧ w.toNat ≠ 0x00E0 ∧ w.toNat ≠ 0x00EE) ∨
    (e = .family5 ∧ w.toNat / 4096 = 5 ∧ w.toNat % 16 ≠ 0) ∨
    (e = .family8 ∧ w.toNat / 4096 = 8 ∧ w.toNat % 16 ∈ [0x8, 0x9, 0xA, 0xB, 0xC, 0xD, 0xF]) ∨
    (e = .family9 ∧ w.toNat / 4096 = 9 ∧ w.toNat % 16 ≠ 0) ∨
    (e = .familyE ∧ w.toNat / 4096 = 14 ∧ w.toNat % 256 ∉ [0x9E, 0xA1]) ∨
    (e = .familyF ∧ w.toNat / 4096 = 15 ∧ w.toNat % 256 ∉ [0x07, 0x0A, 0x15, 0x18, 0x1E, 0x29, 0x33, 0x55, 0x65])

/-- The example words of spec/41 to 45, and vector S3, decode as spec/30_encoding.md section 4 says (a sanity check). -/
def Obligations.ExampleWordsDecode : Prop :=
  decodeWord 0x1204 = .ok (.jp 0x204) ∧ decodeWord 0x332A = .ok (.seImm 3 0x2A) ∧ decodeWord 0x8124 = .ok (.addReg 1 2) ∧
  decodeWord 0xF21E = .ok (.addI 2) ∧ decodeWord 0xD012 = .ok (.drw 0 1 2) ∧ decodeWord 0xE29E = .ok (.skp 2) ∧
  decodeWord 0x5121 = .error .family5

/-! ## The step cycle (spec/40_step_cycle.md) and fetch (spec/20_memory.md) -/

/-- R31: fetch is big-endian, and a word is the instruction its two bytes make. -/
def Obligations.FetchIsBigEndian : Prop :=
  ∀ s : State, s.pc.toNat < 0x0FFF →
    ∃ w, s.fetch = some w ∧ w.toNat = (s.mem.read s.pc.toNat).toNat * 256 + (s.mem.read (s.pc.toNat + 1)).toNat

/-- Sections 1 to 5 and 7 (R60, R67; what a fault leaves and reports is the spec's own decision D6 and D7): when the bytes
at PC decode to an instruction and the core is not halted, the STEP is `exec` of it. A fatal fault ends the STEP, whose
status is that fault, without tone or diagnostic; otherwise the timer update follows, the status is OK, there is no
diagnostic, and the tone is raised exactly when the sound timer was 1 before the update. No instruction is refused. -/
def Obligations.StepRunsDecodedInstruction : Prop :=
  ∀ (s : State) (i : Instr) (rest : List Byte),
    s.halt = false → s.pc.toNat < 0x0FFF →
    decodeBytes [s.mem.read s.pc.toNat, s.mem.read (s.pc.toNat + 1)] = .ok (i, rest) →
    i.wellFormed = true ∧ rest = [] ∧
    (∀ t, exec i s = .next t → t.halt = true →
      cycle s = .next (t, ⟨.fault t.cause, false, none⟩) ∧ step s = .next t) ∧
    (∀ t, exec i s = .next t → t.halt = false →
      cycle s = .next ({ t with dt := countDown t.dt, st := countDown t.st }, ⟨.ok, t.st == 1, none⟩) ∧
      step s = .next { t with dt := countDown t.dt, st := countDown t.st }) ∧
    (∀ r, exec i s = .fault r → cycle s = .fault r ∧ step s = .fault r) ∧
    (∀ r, exec i s ≠ .refused r)

/-- Section 1 and D7 (the spec's own decision to latch the halt): a STEP that starts halted changes nothing. -/
def Obligations.HaltedStepChangesNothing : Prop :=
  ∀ s : State, s.halt = true → cycle s = .next (s, ⟨.fault s.cause, false, none⟩)

/-- Section 2 with D6 and D7 (the spec's own decisions on what a fault leaves): a fetch with PC ≥ 0x0FFF raises
F_FETCH_OOB. -/
def Obligations.FetchBeyondMemoryFaults : Prop :=
  ∀ s : State, s.halt = false → 0x0FFF ≤ s.pc.toNat →
    cycle s = .next ({ s with halt := true, cause := .fetchOob }, ⟨.fault .fetchOob, false, none⟩)

/-- Section 6 with D5 (the diagnostic carries the word by the spec's own decision): an unrecognized word advances PC by 2,
runs the timer update, reports the word, and changes nothing else. -/
def Obligations.UnrecognizedWordIsSkipped : Prop :=
  ∀ (s : State) (w : Word) (e : Reject), s.halt = false → s.fetch = some w → decodeWord w = .error e →
    ∃ t, cycle s = .next (t, ⟨.ok, s.st == 1, some w⟩) ∧ t.pc = s.pc + 2 ∧
      t.dt.toNat = s.dt.toNat - 1 ∧ t.st.toNat = s.st.toNat - 1 ∧ KeepsBut [.pc, .dt, .st] [] s t

/-- R65: in every STEP that neither faulted nor started halted both timers count down by one after the instruction's own
writes, and the tone is raised exactly when the sound timer was 1 before that. -/
def Obligations.TimersTickEveryStep : Prop :=
  ∀ (s t : State) (o : StepOutput), s.halt = false → cycle s = .next (t, o) → o.status = .ok →
    ∃ dt st : Byte,
      t.dt.toNat = dt.toNat - 1 ∧ t.st.toNat = st.toNat - 1 ∧ (o.tone = true ↔ st = 1) ∧
      (∀ x, Runs s (.ldDtVx x) → dt = s.getV x) ∧ ((∀ x, ¬ Runs s (.ldDtVx x)) → dt = s.dt) ∧
      (∀ x, Runs s (.ldStVx x) → st = s.getV x) ∧ ((∀ x, ¬ Runs s (.ldStVx x)) → st = s.st)

/-- R64: the five classes of PC writes, on natural numbers without wrap, from every state of the invariant that can
fetch; an unrecognized word takes the default advance. -/
def Obligations.PcAfterEveryInstruction : Prop :=
  (∀ (i : Instr) (s t : State), s.Inv → s.halt = false → s.pc.toNat ≤ 0xFFE → exec i s = .next t → t.halt = false →
    match i with
    | .jp nnn | .call nnn => t.pc.toNat = nnn.toNat
    | .ret => ∃ a, s.stack[s.sp.toNat - 1]? = some a ∧ t.pc.toNat = a.toNat + 2
    | .jpV0 nnn => t.pc.toNat = nnn.toNat + (s.getV 0).toNat + 2
    | .seImm x kk => t.pc.toNat = s.pc.toNat + (if s.getV x = kk then 4 else 2)
    | .sneImm x kk => t.pc.toNat = s.pc.toNat + (if s.getV x ≠ kk then 4 else 2)
    | .seReg x y => t.pc.toNat = s.pc.toNat + (if s.getV x = s.getV y then 4 else 2)
    | .sneReg x y => t.pc.toNat = s.pc.toNat + (if s.getV x ≠ s.getV y then 4 else 2)
    | .skp x => t.pc.toNat = s.pc.toNat + (if s.key[(s.getV x).toNat]? = some true then 4 else 2)
    | .sknp x => t.pc.toNat = s.pc.toNat + (if s.key[(s.getV x).toNat]? = some false then 4 else 2)
    | .ldVxK _ => t.pc.toNat = s.pc.toNat + (if ∃ k : Key, s.key[k.val] = true then 2 else 0)
    | .cls | .ldImm _ _ | .addImm _ _ | .ldReg _ _ | .orReg _ _ | .andReg _ _ | .xorReg _ _ | .addReg _ _
    | .subReg _ _ | .shr _ _ | .subnReg _ _ | .shl _ _ | .ldI _ | .rnd _ _ | .drw _ _ _ | .ldVxDt _ | .ldDtVx _
    | .ldStVx _ | .addI _ | .ldF _ | .ldB _ | .stRegs _ | .ldRegs _ => t.pc.toNat = s.pc.toNat + 2) ∧
  (∀ (s t : State) (o : StepOutput) (w : Word) (e : Reject), s.halt = false → s.fetch = some w → decodeWord w = .error e →
    cycle s = .next (t, o) → t.pc.toNat = s.pc.toNat + 2)

/-- spec/00_scope.md section 4 and spec/10_state.md section 9: with a stack pointer of at most 16 a STEP always
returns. -/
def Obligations.StepAlwaysReturns : Prop :=
  ∀ s : State, s.sp.toNat ≤ 16 → ∃ t, step s = .next t

/-! ## Control flow (spec/41_control_flow.md) -/

/-- R72: 1nnn. -/
def Obligations.JumpSetsPcToTarget : Prop :=
  ∀ (nnn : Addr) (s : State),
    decodeWord (wordNNN 0x1000 nnn) = .ok (.jp nnn) ∧
    ∃ t, exec (.jp nnn) s = .next t ∧ t.pc.toNat = nnn.toNat ∧ (t.fetch = none ↔ nnn = 0xFFF) ∧ KeepsBut [.pc] [] s t

/-- R74, R75: 3xkk and 4xkk. -/
def Obligations.SkipOnImmediateComparison : Prop :=
  ∀ (x : Reg) (kk : Byte) (s : State),
    decodeWord (wordXKK 0x3000 x kk) = .ok (.seImm x kk) ∧ decodeWord (wordXKK 0x4000 x kk) = .ok (.sneImm x kk) ∧
    (∃ t, exec (.seImm x kk) s = .next t ∧ t.pc = s.pc + (if s.getV x = kk then 4 else 2) ∧ KeepsBut [.pc] [] s t) ∧
    (∃ t, exec (.sneImm x kk) s = .next t ∧ t.pc = s.pc + (if s.getV x ≠ kk then 4 else 2) ∧ KeepsBut [.pc] [] s t)

/-- R76, R77: 5xy0 and 9xy0; a non-zero low nibble is no alias. -/
def Obligations.SkipOnRegisterComparison : Prop :=
  ∀ (x y : Reg) (s : State),
    decodeWord (wordXYN 0x5000 x y 0) = .ok (.seReg x y) ∧ decodeWord (wordXYN 0x9000 x y 0) = .ok (.sneReg x y) ∧
    (∀ n, 1 ≤ n → n ≤ 15 →
      decodeWord (wordXYN 0x5000 x y n) = .error .family5 ∧ decodeWord (wordXYN 0x9000 x y n) = .error .family9) ∧
    (∃ t, exec (.seReg x y) s = .next t ∧ t.pc = s.pc + (if s.getV x = s.getV y then 4 else 2) ∧ KeepsBut [.pc] [] s t) ∧
    (∃ t, exec (.sneReg x y) s = .next t ∧ t.pc = s.pc + (if s.getV x ≠ s.getV y then 4 else 2) ∧ KeepsBut [.pc] [] s t)

/-- R78: Bnnn, the sum on natural numbers, not masked. -/
def Obligations.ComputedJumpAddsTwo : Prop :=
  ∀ (nnn : Addr) (s : State),
    decodeWord (wordNNN 0xB000 nnn) = .ok (.jpV0 nnn) ∧
    ∃ t, exec (.jpV0 nnn) s = .next t ∧ t.pc.toNat = nnn.toNat + (s.getV 0).toNat + 2 ∧ KeepsBut [.pc] [] s t

/-- Section 4 with D8 (a full stack is fatal by the spec's own decision; assumption 6 beyond it): 2nnn pushes its own
address. -/
def Obligations.CallPushesItsOwnAddress : Prop :=
  ∀ (nnn : Addr) (s : State),
    decodeWord (wordNNN 0x2000 nnn) = .ok (.call nnn) ∧
    (s.sp.toNat < 16 →
      ∃ t, exec (.call nnn) s = .next t ∧ t.stack[s.sp.toNat]? = some s.pc ∧
        (∀ j, j ≠ s.sp.toNat → t.stack[j]? = s.stack[j]?) ∧ t.sp.toNat = s.sp.toNat + 1 ∧ t.pc.toNat = nnn.toNat ∧
        KeepsBut [.pc, .sp, .stack] [] s t) ∧
    (s.sp.toNat = 16 → exec (.call nnn) s = .next { s with halt := true, cause := .stackOverflow }) ∧
    (16 < s.sp.toNat → exec (.call nnn) s = .fault (.stackPointerOutOfRange s.sp))

/-- Section 2 with D8 (an empty stack is fatal by the spec's own decision; assumption 6 beyond 16): 00EE resumes after the
call and keeps the popped slot. -/
def Obligations.ReturnResumesAfterCall : Prop :=
  ∀ s : State,
    decodeWord 0x00EE = .ok .ret ∧
    (1 ≤ s.sp.toNat → s.sp.toNat ≤ 16 →
      ∃ t a, s.stack[s.sp.toNat - 1]? = some a ∧ exec .ret s = .next t ∧ t.pc = a + 2 ∧ t.sp.toNat = s.sp.toNat - 1 ∧
        KeepsBut [.pc, .sp] [] s t) ∧
    (s.sp.toNat = 0 → exec .ret s = .next { s with halt := true, cause := .stackUnderflow }) ∧
    (16 < s.sp.toNat → exec .ret s = .fault (.stackPointerOutOfRange s.sp))

/-- Section 4, the source's testable property T5: whatever runs in between, if it leaves the stack as the call left it, the
return goes to the instruction after the call. -/
def Obligations.CallReturnRoundTrip : Prop :=
  ∀ (nnn : Addr) (s t u : State), s.sp.toNat < 16 → exec (.call nnn) s = .next t → u.sp = t.sp → u.stack = t.stack →
    ∃ v, exec .ret u = .next v ∧ v.pc = s.pc + 2 ∧ v.sp = s.sp ∧ KeepsBut [.pc, .sp] [] u v

/-! ## Registers and ALU (spec/42_alu.md) -/

/-- R82: 6xkk. -/
def Obligations.LoadImmediate : Prop :=
  ∀ (x : Reg) (kk : Byte) (s : State),
    decodeWord (wordXKK 0x6000 x kk) = .ok (.ldImm x kk) ∧
    ∃ t, exec (.ldImm x kk) s = .next t ∧ t.getV x = kk ∧ t.pc = s.pc + 2 ∧ KeepsBut [.pc] [x] s t

/-- R83: 7xkk wraps and sets no flag. -/
def Obligations.AddImmediateWrapsWithoutFlag : Prop :=
  ∀ (x : Reg) (kk : Byte) (s : State),
    decodeWord (wordXKK 0x7000 x kk) = .ok (.addImm x kk) ∧
    ∃ t, exec (.addImm x kk) s = .next t ∧ (t.getV x).toNat = ((s.getV x).toNat + kk.toNat) % 256 ∧ t.pc = s.pc + 2 ∧
      KeepsBut [.pc] [x] s t

/-- R84: 8xy0. -/
def Obligations.MoveRegister : Prop :=
  ∀ (x y : Reg) (s : State),
    decodeWord (wordXYN 0x8000 x y 0) = .ok (.ldReg x y) ∧
    ∃ t, exec (.ldReg x y) s = .next t ∧ t.getV x = s.getV y ∧ t.pc = s.pc + 2 ∧ KeepsBut [.pc] [x] s t

/-- R85, R86, R87: 8xy1, 8xy2, 8xy3, bit by bit, with VF neither set nor cleared. -/
def Obligations.LogicIsBitwiseWithoutFlag : Prop :=
  ∀ (x y : Reg) (s : State),
    decodeWord (wordXYN 0x8001 x y 0) = .ok (.orReg x y) ∧ decodeWord (wordXYN 0x8002 x y 0) = .ok (.andReg x y) ∧
    decodeWord (wordXYN 0x8003 x y 0) = .ok (.xorReg x y) ∧
    (∃ t, exec (.orReg x y) s = .next t ∧ t.pc = s.pc + 2 ∧ KeepsBut [.pc] [x] s t ∧
      ∀ b, (t.getV x).getLsbD b = ((s.getV x).getLsbD b || (s.getV y).getLsbD b)) ∧
    (∃ t, exec (.andReg x y) s = .next t ∧ t.pc = s.pc + 2 ∧ KeepsBut [.pc] [x] s t ∧
      ∀ b, (t.getV x).getLsbD b = ((s.getV x).getLsbD b && (s.getV y).getLsbD b)) ∧
    (∃ t, exec (.xorReg x y) s = .next t ∧ t.pc = s.pc + 2 ∧ KeepsBut [.pc] [x] s t ∧
      ∀ b, (t.getV x).getLsbD b = ((s.getV x).getLsbD b ^^ (s.getV y).getLsbD b))

/-- Section 4 with D14 (flag last is the spec's own decision): 8xy4. -/
def Obligations.AddSetsCarryLast : Prop :=
  ∀ (x y : Reg) (s : State),
    decodeWord (wordXYN 0x8004 x y 0) = .ok (.addReg x y) ∧
    ∃ t, exec (.addReg x y) s = .next t ∧
      (x ≠ 15 → (t.getV x).toNat = ((s.getV x).toNat + (s.getV y).toNat) % 256) ∧
      t.getV 15 = (if 255 < (s.getV x).toNat + (s.getV y).toNat then 1 else 0) ∧
      t.pc = s.pc + 2 ∧ KeepsBut [.pc] [x, 15] s t

/-- Section 4 with D14 (flag last is the spec's own decision): 8xy5, the comparison strict. -/
def Obligations.SubtractSetsStrictFlag : Prop :=
  ∀ (x y : Reg) (s : State),
    decodeWord (wordXYN 0x8005 x y 0) = .ok (.subReg x y) ∧
    ∃ t, exec (.subReg x y) s = .next t ∧
      (x ≠ 15 → (t.getV x).toNat = ((s.getV x).toNat + 256 - (s.getV y).toNat) % 256) ∧
      t.getV 15 = (if (s.getV y).toNat < (s.getV x).toNat then 1 else 0) ∧
      t.pc = s.pc + 2 ∧ KeepsBut [.pc] [x, 15] s t

/-- Section 4 with D14 and D15 (flag last and the strict comparison are the spec's own decisions): 8xy7. -/
def Obligations.ReverseSubtractSetsStrictFlag : Prop :=
  ∀ (x y : Reg) (s : State),
    decodeWord (wordXYN 0x8007 x y 0) = .ok (.subnReg x y) ∧
    ∃ t, exec (.subnReg x y) s = .next t ∧
      (x ≠ 15 → (t.getV x).toNat = ((s.getV y).toNat + 256 - (s.getV x).toNat) % 256) ∧
      t.getV 15 = (if (s.getV x).toNat < (s.getV y).toNat then 1 else 0) ∧
      t.pc = s.pc + 2 ∧ KeepsBut [.pc] [x, 15] s t

/-- R90, R92: 8xy6 and 8xyE shift Vx alone, whatever y is, and do not write VF. -/
def Obligations.ShiftsIgnoreYAndFlag : Prop :=
  ∀ (x y : Reg) (s : State),
    decodeWord (wordXYN 0x8006 x y 0) = .ok (.shr x y) ∧ decodeWord (wordXYN 0x800E x y 0) = .ok (.shl x y) ∧
    (∃ t, exec (.shr x y) s = .next t ∧ (t.getV x).toNat = (s.getV x).toNat / 2 ∧ t.pc = s.pc + 2 ∧ KeepsBut [.pc] [x] s t) ∧
    (∃ t, exec (.shl x y) s = .next t ∧ (t.getV x).toNat = (s.getV x).toNat * 2 % 256 ∧ t.pc = s.pc + 2 ∧
      KeepsBut [.pc] [x] s t) ∧
    (∀ z, exec (.shr x z) s = exec (.shr x y) s ∧ exec (.shl x z) s = exec (.shl x y) s)

/-- Section 6 with D16 (`rnd` is a parameter by the spec's own decision; assumption 2): Cxkk, for whatever byte is drawn. -/
def Obligations.RandomIsMasked : Prop :=
  ∀ (x : Reg) (kk : Byte) (s : State),
    decodeWord (wordXKK 0xC000 x kk) = .ok (.rnd x kk) ∧
    ∃ t, exec (.rnd x kk) s = .next t ∧ t.getV x = s.rndByte &&& kk ∧ (t.getV x).toNat ≤ kk.toNat ∧
      (∀ b, kk.getLsbD b = false → (t.getV x).getLsbD b = false) ∧ t.pc = s.pc + 2 ∧ KeepsBut [.pc, .draws] [x] s t

/-! ## Index register and memory (spec/43_index_memory.md) -/

/-- R101: Annn. -/
def Obligations.LoadIndex : Prop :=
  ∀ (nnn : Addr) (s : State),
    decodeWord (wordNNN 0xA000 nnn) = .ok (.ldI nnn) ∧
    ∃ t, exec (.ldI nnn) s = .next t ∧ t.i.toNat = nnn.toNat ∧ t.pc = s.pc + 2 ∧ KeepsBut [.pc, .i] [] s t

/-- Section 3 with D24 (the wrap at 65536 is the spec's own decision): Fx1E, no flag. -/
def Obligations.AddToIndexWrapsAt65536 : Prop :=
  ∀ (x : Reg) (s : State),
    decodeWord (wordX 0xF01E x) = .ok (.addI x) ∧
    ∃ t, exec (.addI x) s = .next t ∧ t.i.toNat = (s.i.toNat + (s.getV x).toNat) % 65536 ∧ t.pc = s.pc + 2 ∧
      KeepsBut [.pc, .i] [] s t

/-- Section 4 with D23 (the whole byte is multiplied by the spec's own decision): Fx29. -/
def Obligations.GlyphAddressIsFiveTimes : Prop :=
  ∀ (x : Reg) (s : State),
    decodeWord (wordX 0xF029 x) = .ok (.ldF x) ∧
    ∃ t, exec (.ldF x) s = .next t ∧ t.i.toNat = (s.getV x).toNat * 5 ∧ t.pc = s.pc + 2 ∧ KeepsBut [.pc, .i] [] s t

/-- Section 5 with D9 (the bound check is the spec's own decision): Fx33 stores the three digits at I, I+1, I+2. -/
def Obligations.DecimalDigitsAreStored : Prop :=
  ∀ (x : Reg) (s : State),
    decodeWord (wordX 0xF033 x) = .ok (.ldB x) ∧
    (s.i.toNat + 2 ≤ 0xFFF →
      ∃ t, exec (.ldB x) s = .next t ∧
        (t.mem.read s.i.toNat).toNat = (s.getV x).toNat / 100 ∧
        (t.mem.read (s.i.toNat + 1)).toNat = (s.getV x).toNat / 10 % 10 ∧
        (t.mem.read (s.i.toNat + 2)).toNat = (s.getV x).toNat % 10 ∧
        (∀ a, a < s.i.toNat ∨ s.i.toNat + 2 < a → t.mem.read a = s.mem.read a) ∧
        t.pc = s.pc + 2 ∧ KeepsBut [.pc, .mem] [] s t) ∧
    (0xFFF < s.i.toNat + 2 → exec (.ldB x) s = .next { s with halt := true, cause := .dataOob })

/-- Section 6 with D9 (the bound check is the spec's own decision): Fx55 stores V0 to Vx from I and moves I past them. -/
def Obligations.BlockStore : Prop :=
  ∀ (x : Reg) (s : State),
    decodeWord (wordX 0xF055 x) = .ok (.stRegs x) ∧
    (s.i.toNat + x.val ≤ 0xFFF →
      ∃ t, exec (.stRegs x) s = .next t ∧
        (∀ j : Reg, j ≤ x → t.mem.read (s.i.toNat + j.val) = s.getV j) ∧
        (∀ a, a < s.i.toNat ∨ s.i.toNat + x.val < a → t.mem.read a = s.mem.read a) ∧
        t.i.toNat = s.i.toNat + x.val + 1 ∧ t.pc = s.pc + 2 ∧ KeepsBut [.pc, .i, .mem] [] s t) ∧
    (0xFFF < s.i.toNat + x.val → exec (.stRegs x) s = .next { s with halt := true, cause := .dataOob })

/-- Section 7 with D9 (the bound check is the spec's own decision): Fx65 loads V0 to Vx from I and moves I past them. -/
def Obligations.BlockLoad : Prop :=
  ∀ (x : Reg) (s : State),
    decodeWord (wordX 0xF065 x) = .ok (.ldRegs x) ∧
    (s.i.toNat + x.val ≤ 0xFFF →
      ∃ t, exec (.ldRegs x) s = .next t ∧
        (∀ j : Reg, j ≤ x → t.getV j = s.mem.read (s.i.toNat + j.val)) ∧ (∀ j : Reg, x < j → t.getV j = s.getV j) ∧
        t.i.toNat = s.i.toNat + x.val + 1 ∧ t.pc = s.pc + 2 ∧
        KeepsBut [.pc, .i] ((List.finRange 16).filter (· ≤ x)) s t) ∧
    (0xFFF < s.i.toNat + x.val → exec (.ldRegs x) s = .next { s with halt := true, cause := .dataOob })

/-- spec/20_memory.md section 9: the bytes Fx55 stores over the next instruction are what the next fetch reads. -/
def Obligations.StoredBytesAreFetchedNext : Prop :=
  ∀ (x j k : Reg) (s t : State), s.i.toNat + x.val ≤ 0xFFF → exec (.stRegs x) s = .next t →
    k.val = j.val + 1 → k ≤ x → t.pc.toNat = s.i.toNat + j.val →
    ∃ w, t.fetch = some w ∧ w.toNat = (s.getV j).toNat * 256 + (s.getV k).toNat

/-! ## Display (spec/44_display.md) -/

/-- R110: 00E0. -/
def Obligations.ClearBlanksAndMarksDirty : Prop :=
  ∀ s : State,
    decodeWord 0x00E0 = .ok .cls ∧
    ∃ t, exec .cls s = .next t ∧ (∀ k, k < 2048 → t.fb.cell k = false) ∧ t.dirty = true ∧ t.pc = s.pc + 2 ∧
      KeepsBut [.pc, .fb, .dirty] [] s t

/-- Section 2 with D9, D11, D12, D13 (bound check, skipped pixels, bit order and write order are the spec's own
decisions): Dxyn turns over the covered cells and no others, and VF says whether one of them was lit. -/
def Obligations.DrawXorsSprite : Prop :=
  ∀ (x y : Reg) (n : Nat) (s : State),
    (n < 16 → decodeWord (wordXYN 0xD000 x y n) = .ok (.drw x y n)) ∧
    (n = 0 ∨ s.i.toNat + n - 1 ≤ 0xFFF →
      ∃ t, exec (.drw x y n) s = .next t ∧
        (∀ k, k < 2048 → SpriteCovers s (s.getV x).toNat (s.getV y).toNat n k → t.fb.cell k = !s.fb.cell k) ∧
        (∀ k, k < 2048 → ¬ SpriteCovers s (s.getV x).toNat (s.getV y).toNat n k → t.fb.cell k = s.fb.cell k) ∧
        ((∃ k, k < 2048 ∧ SpriteCovers s (s.getV x).toNat (s.getV y).toNat n k ∧ s.fb.cell k = true) → t.getV 15 = 1) ∧
        (¬ (∃ k, k < 2048 ∧ SpriteCovers s (s.getV x).toNat (s.getV y).toNat n k ∧ s.fb.cell k = true) → t.getV 15 = 0) ∧
        t.dirty = true ∧ t.pc = s.pc + 2 ∧ KeepsBut [.pc, .fb, .dirty] [15] s t) ∧
    (n ≠ 0 → 0xFFF < s.i.toNat + n - 1 → exec (.drw x y n) s = .next { s with halt := true, cause := .dataOob })

/-- Section 3: drawing the same sprite twice restores the display; the second draw collides exactly where a covered cell
was dark before the first. -/
def Obligations.DrawingTwiceRestores : Prop :=
  ∀ (x y : Reg) (n : Nat) (s t : State), (n = 0 ∨ s.i.toNat + n - 1 ≤ 0xFFF) → exec (.drw x y n) s = .next t →
    t.getV x = s.getV x → t.getV y = s.getV y →
    ∃ u, exec (.drw x y n) t = .next u ∧ (∀ k, k < 2048 → u.fb.cell k = s.fb.cell k) ∧ u.dirty = true ∧
      (u.getV 15 = 1 ↔
        ∃ k, k < 2048 ∧ SpriteCovers s (s.getV x).toNat (s.getV y).toNat n k ∧ s.fb.cell k = false)

/-! ## Keys and timers (spec/45_keys_timers.md) -/

/-- Section 1 with D10 (an index above 15 is fatal by the spec's own decision): Ex9E and ExA1. -/
def Obligations.SkipOnKey : Prop :=
  ∀ (x : Reg) (s : State),
    decodeWord (wordX 0xE09E x) = .ok (.skp x) ∧ decodeWord (wordX 0xE0A1 x) = .ok (.sknp x) ∧
    (∀ b, s.key[(s.getV x).toNat]? = some b →
      (∃ t, exec (.skp x) s = .next t ∧ t.pc = s.pc + (if b = true then 4 else 2) ∧ KeepsBut [.pc] [] s t) ∧
      (∃ t, exec (.sknp x) s = .next t ∧ t.pc = s.pc + (if b = false then 4 else 2) ∧ KeepsBut [.pc] [] s t)) ∧
    (15 < (s.getV x).toNat →
      exec (.skp x) s = .next { s with halt := true, cause := .keyIndex } ∧
      exec (.sknp x) s = .next { s with halt := true, cause := .keyIndex })

/-- R123: Fx07 reads DT before the timer update of its own STEP. -/
def Obligations.ReadDelayTimer : Prop :=
  ∀ (x : Reg) (s : State),
    decodeWord (wordX 0xF007 x) = .ok (.ldVxDt x) ∧
    (∃ t, exec (.ldVxDt x) s = .next t ∧ t.getV x = s.dt ∧ t.pc = s.pc + 2 ∧ KeepsBut [.pc] [x] s t) ∧
    (Runs s (.ldVxDt x) → ∃ t, step s = .next t ∧ t.getV x = s.dt ∧ t.dt.toNat = s.dt.toNat - 1)

/-- Section 3 with D17 and D18 (KeyPick and the re-decode are the spec's own decisions; assumption 3): Fx0A waits by not
advancing, and otherwise stores the index of a pressed key. -/
def Obligations.WaitForKey : Prop :=
  ∀ (x : Reg) (s : State),
    decodeWord (wordX 0xF00A x) = .ok (.ldVxK x) ∧
    ((∀ k : Key, s.key[k.val] = false) → exec (.ldVxK x) s = .next s) ∧
    (∀ k : Key, s.key[k.val] = true →
      ∃ t p, exec (.ldVxK x) s = .next t ∧ s.key[(p : Key).val] = true ∧ (t.getV x).toNat = p.val ∧ t.pc = s.pc + 2 ∧
        KeepsBut [.pc] [x] s t ∧ ((∀ j : Key, s.key[j.val] = true → j = k) → p = k))

/-- R124: Fx15, and the timer update of the same STEP acts on the new value. -/
def Obligations.SetDelayTimer : Prop :=
  ∀ (x : Reg) (s : State),
    decodeWord (wordX 0xF015 x) = .ok (.ldDtVx x) ∧
    (∃ t, exec (.ldDtVx x) s = .next t ∧ t.dt = s.getV x ∧ t.pc = s.pc + 2 ∧ KeepsBut [.pc, .dt] [] s t) ∧
    (Runs s (.ldDtVx x) → ∃ t, step s = .next t ∧ t.dt.toNat = (s.getV x).toNat - 1)

/-- Section 4: Fx18; with V[x] = 1 the same STEP raises the tone. -/
def Obligations.SetSoundTimer : Prop :=
  ∀ (x : Reg) (s : State),
    decodeWord (wordX 0xF018 x) = .ok (.ldStVx x) ∧
    (∃ t, exec (.ldStVx x) s = .next t ∧ t.st = s.getV x ∧ t.pc = s.pc + 2 ∧ KeepsBut [.pc, .st] [] s t) ∧
    (Runs s (.ldStVx x) →
      ∃ t o, cycle s = .next (t, o) ∧ t.st.toNat = (s.getV x).toNat - 1 ∧ (o.tone = true ↔ s.getV x = 1))

/-! ## Faults (spec/60_exceptions.md) -/

/-- Section 3 with D6 and D7 (precise faults and the latch are the spec's own decisions): a STEP that faults changes HALT
and CAUSE and nothing else, with no timer update, tone or diagnostic. -/
def Obligations.FaultingStepIsPrecise : Prop :=
  ∀ (s t : State) (o : StepOutput), s.halt = false → cycle s = .next (t, o) → t.halt = true →
    t = { s with halt := true, cause := t.cause } ∧ t.cause ≠ .none ∧ o = ⟨.fault t.cause, false, none⟩

/-- Sections 2 and 5 with D8, D9, D10 (four of the causes are the spec's own decisions): an instruction faults exactly on
its own condition, with its own cause. -/
def Obligations.FaultConditionsAndCauses : Prop :=
  ∀ (i : Instr) (s t : State), s.halt = false → exec i s = .next t →
    (t.halt = true ↔ faultDue i s ≠ none) ∧ (t.halt = true → faultDue i s = some t.cause)

/-! ## Whole-machine rules (spec/10_state.md) -/

/-- Section 3: the flag register is written implicitly by 8xy4, 8xy5, 8xy7 and Dxyn only, and then with 0 or 1. -/
def Obligations.FlagIsWrittenByFourInstructions : Prop :=
  ∀ (i : Instr) (s t : State), s.halt = false → exec i s = .next t → t.halt = false →
    match i with
    | .addReg _ _ | .subReg _ _ | .subnReg _ _ | .drw _ _ _ => t.getV 15 = 0 ∨ t.getV 15 = 1
    | .ldImm x _ | .addImm x _ | .rnd x _ | .ldVxDt x | .ldVxK x | .ldReg x _ | .orReg x _ | .andReg x _ | .xorReg x _
    | .shr x _ | .shl x _ | .ldRegs x => x ≠ 15 → t.getV 15 = s.getV 15
    | .cls | .ret | .jp _ | .call _ | .seImm _ _ | .sneImm _ _ | .seReg _ _ | .sneReg _ _ | .ldI _ | .jpV0 _ | .skp _
    | .sknp _ | .ldDtVx _ | .ldStVx _ | .addI _ | .ldF _ | .ldB _ | .stRegs _ => t.getV 15 = s.getV 15

/-- Section 10, the writers' column: each piece of state is written by the instructions of its row only, KEY by none, and
HALT and CAUSE by an instruction only when its own fault is due. -/
def Obligations.WritersOfEachPiece : Prop :=
  ∀ (i : Instr) (s t : State), exec i s = .next t →
    t.key = s.key ∧
    ((∃ r, t.getV r ≠ s.getV r) →
      (∃ x kk, i = .ldImm x kk ∨ i = .addImm x kk ∨ i = .rnd x kk) ∨
      (∃ x y, i = .ldReg x y ∨ i = .orReg x y ∨ i = .andReg x y ∨ i = .xorReg x y ∨ i = .addReg x y ∨ i = .subReg x y ∨
        i = .shr x y ∨ i = .subnReg x y ∨ i = .shl x y) ∨
      (∃ x, i = .ldVxDt x ∨ i = .ldVxK x ∨ i = .ldRegs x) ∨ ∃ x y n, i = .drw x y n) ∧
    (t.i ≠ s.i → (∃ n, i = .ldI n) ∨ (∃ x, i = .addI x ∨ i = .ldF x ∨ i = .stRegs x ∨ i = .ldRegs x)) ∧
    (t.sp ≠ s.sp → i = .ret ∨ ∃ n, i = .call n) ∧
    (t.stack ≠ s.stack → ∃ n, i = .call n) ∧
    ((∃ a, t.mem.read a ≠ s.mem.read a) → ∃ x, i = .ldB x ∨ i = .stRegs x) ∧
    (t.fb ≠ s.fb ∨ t.dirty ≠ s.dirty → i = .cls ∨ ∃ x y n, i = .drw x y n) ∧
    (t.dt ≠ s.dt → ∃ x, i = .ldDtVx x) ∧
    (t.st ≠ s.st → ∃ x, i = .ldStVx x) ∧
    (t.halt ≠ s.halt ∨ t.cause ≠ s.cause → faultDue i s ≠ none) ∧
    (t.pc = s.pc → t.halt = false → s.halt = false → (∃ x, i = .ldVxK x) ∨ i = .ret ∨
      ∃ n, i = .jp n ∨ i = .call n ∨ i = .jpV0 n)

/-- Section 10, the readers' column: no instruction reads DIRTY, ST, HALT or CAUSE; spec/42_alu.md section 6 and
spec/60_exceptions.md section 8 with D16 (R93, R150; that `rnd` is a parameter is the spec's own decision): only Cxkk reads
the random input, which the model names by its own count `draws` (assumption 2). Two states that differ in nothing else
answer alike. -/
def Obligations.HostSideStateIsNotRead : Prop :=
  ∀ (i : Instr) (s s' : State),
    (s'.draws = s.draws ∨ ∀ x kk, i ≠ .rnd x kk) → KeepsBut [.dirty, .st, .halt, .cause, .draws] [] s s' →
    match exec i s, exec i s' with
    | .next t, .next t' => KeepsBut [.dirty, .st, .halt, .cause, .draws] [] t t'
    | .fault r, .fault r' => r = r'
    | .next _, .fault _ | .fault _, .next _ | .refused _, _ | _, .refused _ => False

/-- Sections 8 and 9: the invariant holds after reset. Its last clause, the canonical form of memory, is the model's own
representation (assumption 8) and no part of section 9. -/
def Obligations.InvariantHoldsAtReset : Prop :=
  State.reset.Inv

/-- Section 9: every STEP keeps the invariant, from every state that has it. The clause on the canonical form of memory is
the model's own representation (assumption 8) and no part of section 9. -/
def Obligations.StepKeepsInvariant : Prop :=
  ∀ s t : State, s.Inv → step s = .next t → t.Inv

/-- Section 9: every transaction of the host keeps the invariant. The clause on the canonical form of memory is the model's
own representation (assumption 8) and no part of section 9. -/
def Obligations.TransactionsKeepInvariant : Prop :=
  ∀ (a : Transaction) (s t : State) (r : Response), s.Inv → transact a s = .next (t, r) → t.Inv

/-- Section 9 and spec/93_implementation_defined.md section 1: every reachable state has the invariant, and no transaction
ever stops in one. The invariant's clause on the canonical form of memory is the model's own representation (assumption 8),
and the free draws may start anywhere (assumption 2). -/
def Obligations.ReachableStatesNeverStop : Prop :=
  ∀ s : State, Reachable s → s.Inv ∧ ∀ a : Transaction, ∃ p, transact a s = .next p

/-! ## Reset, load and the host (spec/70_reset_and_hazards.md, spec/60_exceptions.md section 8) -/

/-- spec/10_state.md section 8 with D20 (memory, DIRTY and keys at reset are the spec's own decisions) and assumption 1
(FONT is free): the reset state, and RESET from any state. -/
def Obligations.ResetLeavesResetState : Prop :=
  (∀ x, State.reset.getV x = 0) ∧ State.reset.i = 0 ∧ State.reset.pc = 0x200 ∧ State.reset.sp = 0 ∧
  (∀ j, j < 16 → State.reset.stack[j]? = some 0) ∧
  (∀ a, a < 80 → State.reset.mem.read a = Config.fontByte a) ∧
  (∀ a, 80 ≤ a → a < 4096 → State.reset.mem.read a = 0) ∧
  (∀ k, k < 2048 → State.reset.fb.cell k = false) ∧ State.reset.dirty = false ∧ State.reset.dt = 0 ∧ State.reset.st = 0 ∧
  (∀ k : Key, State.reset.key[k.val] = false) ∧ State.reset.halt = false ∧ causeCode State.reset.cause = 0 ∧
  (∀ s : State, ∃ t, transact .reset s = .next (t, .done) ∧ KeepsBut [.draws] [] State.reset t)

/-- R163: LOAD copies exactly the image and nothing else, and refuses one of more than 3584 bytes without writing. -/
def Obligations.LoadCopiesExactlyTheImage : Prop :=
  ∀ (s : State) (image : List Byte),
    (image.length ≤ 3584 →
      ∃ t, transact (.load image) s = .next (t, .loaded true) ∧
        (∀ k b, image[k]? = some b → t.mem.read (0x200 + k) = b) ∧
        (∀ a, a < 0x200 ∨ 0x200 + image.length ≤ a → t.mem.read a = s.mem.read a) ∧ KeepsBut [.mem] [] s t) ∧
    (3584 < image.length → transact (.load image) s = .next (s, .loaded false))

/-- R146: SETKEY writes one flag and nothing else; no instruction writes a key flag. -/
def Obligations.SetKeyWritesOneFlag : Prop :=
  ∀ (s : State) (k : Key) (p : Bool),
    (∃ t, transact (.setKey k p) s = .next (t, .done) ∧ t.key[k.val] = p ∧
      (∀ j : Key, j ≠ k → t.key[j.val] = s.key[j.val]) ∧ KeepsBut [.key] [] s t ∧ (s.key[k.val] = p → t = s)) ∧
    (∀ i t, exec i s = .next t → t.key = s.key)

/-- spec/60_exceptions.md section 8 with D25 and D26 (consuming clears and ST can be sampled by the spec's own
decisions): FB_READ, DIRTY_CONSUME, ST_SAMPLE. -/
def Obligations.HostReadsObserve : Prop :=
  ∀ s : State,
    (∃ bits, transact .fbRead s = .next (s, .cells bits) ∧ bits.length = 2048 ∧
      ∀ k, k < 2048 → bits[k]? = some (s.fb.cell k)) ∧
    (∃ t, transact .dirtyConsume s = .next (t, .dirty s.dirty) ∧ t.dirty = false ∧ KeepsBut [.dirty] [] s t) ∧
    transact .stSample s = .next (s, .sample s.st)

/-- spec/70_reset_and_hazards.md section 2: in a settled state every further STEP leaves the whole state unchanged. -/
def Obligations.SettledStateIsFixed : Prop :=
  ∀ s : State, s.Settled → step s = .next s
end

