-- ==== Sys2Proof/Laws/Decode.lean ====
section
/-! SUPPORT. The fields and formats of instruction words as numbers: every field is a quotient and remainder of the word,
every format a sum of its fields, so that facts about decoding close by linear arithmetic. -/

namespace Sys2Proof

/-! ## Fields of a word -/

theorem opField_toNat (w : Word) : (opField w).toNat = w.toNat / 4096 := by
  simp only [opField, BitVec.extractLsb'_toNat, Nat.shiftRight_eq_div_pow]; omega

theorem xField_val (w : Word) : (xField w).val = w.toNat / 256 % 16 := by
  simp only [xField, BitVec.extractLsb', BitVec.toFin_ofNat, Fin.val_ofNat, Nat.shiftRight_eq_div_pow]

theorem yField_val (w : Word) : (yField w).val = w.toNat / 16 % 16 := by
  simp only [yField, BitVec.extractLsb', BitVec.toFin_ofNat, Fin.val_ofNat, Nat.shiftRight_eq_div_pow]

theorem nField_toNat (w : Word) : (nField w).toNat = w.toNat % 16 := by
  simp only [nField, BitVec.extractLsb'_toNat, Nat.shiftRight_eq_div_pow]; omega

theorem kkField_toNat (w : Word) : (kkField w).toNat = w.toNat % 256 := by
  simp only [kkField, BitVec.extractLsb'_toNat, Nat.shiftRight_eq_div_pow]; omega

theorem nnnField_toNat (w : Word) : (nnnField w).toNat = w.toNat % 4096 := by
  simp only [nnnField, BitVec.extractLsb'_toNat, Nat.shiftRight_eq_div_pow]; omega

/-! ## Formats as sums -/

/-- An OR whose right part lies below the left part's lowest bit is a sum. -/
theorem or_eq_add_of_low {k a b : Nat} (hb : b < 2 ^ k) : a * 2 ^ k ||| b = a * 2 ^ k + b := by
  rw [← Nat.shiftLeft_eq, Nat.shiftLeft_add_eq_or_of_lt hb]

theorem formatNNN_toNat (op : BitVec 4) (nnn : Addr) : (formatNNN op nnn).toNat = op.toNat * 4096 + nnn.toNat := by
  have h := or_eq_add_of_low (k := 12) (a := op.toNat) (b := nnn.toNat) nnn.isLt
  have ho := op.isLt; have hn := nnn.isLt
  simp only [formatNNN, BitVec.toNat_or, BitVec.toNat_shiftLeft, BitVec.toNat_setWidth, Nat.shiftLeft_eq]
  rw [Nat.mod_eq_of_lt (a := op.toNat) (by omega), Nat.mod_eq_of_lt (by omega), Nat.mod_eq_of_lt (a := nnn.toNat) (by omega), h]
  omega

theorem formatXKK_toNat (op : BitVec 4) (x : Reg) (kk : Byte) :
    (formatXKK op x kk).toNat = op.toNat * 4096 + x.val * 256 + kk.toNat := by
  have h1 := or_eq_add_of_low (k := 12) (a := op.toNat) (b := x.val * 256) (by omega)
  have h2 := or_eq_add_of_low (k := 8) (a := op.toNat * 16 + x.val) (b := kk.toNat) kk.isLt
  have ho := op.isLt; have hk := kk.isLt
  simp only [formatXKK, BitVec.toNat_or, BitVec.toNat_shiftLeft, BitVec.toNat_setWidth, BitVec.toNat_ofNat, Nat.shiftLeft_eq]
  rw [Nat.mod_eq_of_lt (a := op.toNat) (by omega), Nat.mod_eq_of_lt (a := x.val) (by omega),
    Nat.mod_eq_of_lt (a := op.toNat * 2 ^ 12) (by omega), Nat.mod_eq_of_lt (a := x.val * 2 ^ 8) (by omega),
    Nat.mod_eq_of_lt (a := kk.toNat) (by omega), h1, show op.toNat * 2 ^ 12 + x.val * 256 = (op.toNat * 16 + x.val) * 2 ^ 8 by omega, h2]
  omega

theorem formatXYN_toNat (op : BitVec 4) (x y : Reg) (n : BitVec 4) :
    (formatXYN op x y n).toNat = op.toNat * 4096 + x.val * 256 + y.val * 16 + n.toNat := by
  have hn := n.isLt
  have hy : (BitVec.ofNat 16 y.val <<< 4 ||| n.setWidth 16 : Word) = (BitVec.ofNat 8 (y.val * 16 + n.toNat)).setWidth 16 := by
    have h := or_eq_add_of_low (k := 4) (a := y.val) (b := n.toNat) hn
    apply BitVec.eq_of_toNat_eq
    simp only [BitVec.toNat_or, BitVec.toNat_shiftLeft, BitVec.toNat_setWidth, BitVec.toNat_ofNat, Nat.shiftLeft_eq]
    rw [Nat.mod_eq_of_lt (a := y.val) (by omega), Nat.mod_eq_of_lt (a := y.val * 2 ^ 4) (by omega),
      Nat.mod_eq_of_lt (a := n.toNat) (by omega), h]
    omega
  have h := formatXKK_toNat op x (BitVec.ofNat 8 (y.val * 16 + n.toNat))
  rw [formatXKK, ← hy, ← BitVec.or_assoc] at h
  rw [formatXYN, h, BitVec.toNat_ofNat]
  omega

theorem wordOfBytes_toNat (a b : Byte) : (wordOfBytes a b).toNat = a.toNat * 256 + b.toNat := by
  have h := or_eq_add_of_low (k := 8) (a := a.toNat) (b := b.toNat) b.isLt
  have ha := a.isLt; have hb := b.isLt
  simp only [wordOfBytes, BitVec.toNat_or, BitVec.toNat_shiftLeft, BitVec.toNat_setWidth, Nat.shiftLeft_eq]
  rw [Nat.mod_eq_of_lt (a := a.toNat) (by omega), Nat.mod_eq_of_lt (by omega), Nat.mod_eq_of_lt (a := b.toNat) (by omega), h]
  omega

/-- The bytes a word is stored as are read back as the word (R31). -/
theorem wordOfBytes_high_low (w : Word) : wordOfBytes (highByte w) (lowByte w) = w := by
  apply BitVec.eq_of_toNat_eq
  simp only [wordOfBytes_toNat, highByte, lowByte, BitVec.extractLsb'_toNat, Nat.shiftRight_eq_div_pow]
  omega

/-! ## Fields of the formats -/

@[simp] theorem opField_formatNNN (op : BitVec 4) (nnn : Addr) : opField (formatNNN op nnn) = op := by
  apply BitVec.eq_of_toNat_eq; rw [opField_toNat, formatNNN_toNat]; omega

@[simp] theorem nnnField_formatNNN (op : BitVec 4) (nnn : Addr) : nnnField (formatNNN op nnn) = nnn := by
  apply BitVec.eq_of_toNat_eq; rw [nnnField_toNat, formatNNN_toNat]; omega

@[simp] theorem opField_formatXKK (op : BitVec 4) (x : Reg) (kk : Byte) : opField (formatXKK op x kk) = op := by
  apply BitVec.eq_of_toNat_eq; rw [opField_toNat, formatXKK_toNat]; omega

@[simp] theorem xField_formatXKK (op : BitVec 4) (x : Reg) (kk : Byte) : xField (formatXKK op x kk) = x := by
  apply Fin.ext; rw [xField_val, formatXKK_toNat]; omega

@[simp] theorem kkField_formatXKK (op : BitVec 4) (x : Reg) (kk : Byte) : kkField (formatXKK op x kk) = kk := by
  apply BitVec.eq_of_toNat_eq; rw [kkField_toNat, formatXKK_toNat]; omega

@[simp] theorem opField_formatXYN (op : BitVec 4) (x y : Reg) (n : BitVec 4) : opField (formatXYN op x y n) = op := by
  apply BitVec.eq_of_toNat_eq; rw [opField_toNat, formatXYN_toNat]; omega

@[simp] theorem xField_formatXYN (op : BitVec 4) (x y : Reg) (n : BitVec 4) : xField (formatXYN op x y n) = x := by
  apply Fin.ext; rw [xField_val, formatXYN_toNat]; omega

@[simp] theorem yField_formatXYN (op : BitVec 4) (x y : Reg) (n : BitVec 4) : yField (formatXYN op x y n) = y := by
  apply Fin.ext; rw [yField_val, formatXYN_toNat]; omega

@[simp] theorem nField_formatXYN (op : BitVec 4) (x y : Reg) (n : BitVec 4) : nField (formatXYN op x y n) = n := by
  apply BitVec.eq_of_toNat_eq; rw [nField_toNat, formatXYN_toNat]; omega

/-! ## The formats under the masks of the opcode map -/

/-- A register index has no bit above its four. -/
theorem getElem_reg (x : Reg) {j : Nat} (h : 4 ≤ j) (hj : j < 16) : (BitVec.ofNat 16 x.val)[j] = false := by
  have h1 : x.val < 2 ^ j := Nat.lt_of_lt_of_le x.isLt (Nat.pow_le_pow_right (n := 2) (by decide) h)
  rw [← BitVec.getLsbD_eq_getElem hj, BitVec.getLsbD_ofNat, Nat.testBit_lt_two_pow h1, Bool.and_false]

theorem formatNNN_mask (op : BitVec 4) (nnn : Addr) : formatNNN op nnn &&& 0xF000 = formatNNN op 0 := by
  apply BitVec.eq_of_getLsbD_eq; intro j hj
  simp only [formatNNN]
  interval_cases j <;> simp

theorem formatXKK_mask (op : BitVec 4) (x : Reg) (kk : Byte) : formatXKK op x kk &&& 0xF000 = formatXKK op 0 0 := by
  apply BitVec.eq_of_getLsbD_eq; intro j hj
  simp only [formatXKK]
  interval_cases j <;> simp [getElem_reg]

theorem formatX_mask (op : BitVec 4) (x : Reg) (kk : Byte) : formatXKK op x kk &&& 0xF0FF = formatXKK op 0 kk := by
  apply BitVec.eq_of_getLsbD_eq; intro j hj
  simp only [formatXKK]
  interval_cases j <;> simp [getElem_reg]

theorem formatXY_mask (op : BitVec 4) (x y : Reg) (n : BitVec 4) :
    formatXYN op x y n &&& 0xF00F = formatXYN op 0 0 n := by
  apply BitVec.eq_of_getLsbD_eq; intro j hj
  simp only [formatXYN]
  interval_cases j <;> simp [getElem_reg]

theorem formatXYN_mask (op : BitVec 4) (x y : Reg) (n : BitVec 4) :
    formatXYN op x y n &&& 0xF000 = formatXYN op 0 0 0 := by
  apply BitVec.eq_of_getLsbD_eq; intro j hj
  simp only [formatXYN]
  interval_cases j <;> simp [getElem_reg]

/-! ## A word from its fields -/

theorem formatNNN_fields (w : Word) : formatNNN (opField w) (nnnField w) = w := by
  apply BitVec.eq_of_toNat_eq; rw [formatNNN_toNat, opField_toNat, nnnField_toNat]; omega

theorem formatXKK_fields (w : Word) : formatXKK (opField w) (xField w) (kkField w) = w := by
  apply BitVec.eq_of_toNat_eq; rw [formatXKK_toNat, opField_toNat, xField_val, kkField_toNat]; omega

theorem formatXYN_fields (w : Word) : formatXYN (opField w) (xField w) (yField w) (nField w) = w := by
  apply BitVec.eq_of_toNat_eq; rw [formatXYN_toNat, opField_toNat, xField_val, yField_val, nField_toNat]; omega

end Sys2Proof
end

