-- ==== Sys2Proof/Laws/Memory.lean ====
section
/-! SUPPORT. Memory: a read after a write, for one byte and for a block; and that every memory operation keeps the
canonical form. The read laws need no hypothesis on the list, so frames about memory hold in every state. -/

namespace Sys2Proof.Machine

theorem Memory.read_put (m : Memory) (a : Nat) (v : Byte) (c : Nat) :
    Memory.read (Memory.put m a v) c = if c = a then v else Memory.read m c := by
  induction m with
  | nil => rfl
  | cons p m ih =>
    obtain ⟨b, w⟩ := p
    simp only [Memory.put]
    split
    · rfl
    · split
      · subst a; simp only [Memory.read]; split <;> rfl
      · simp only [Memory.read, ih]
        split
        · rw [if_neg (by omega)]
        · rfl

theorem Memory.read_drop (m : Memory) (a c : Nat) :
    Memory.read (Memory.drop m a) c = if c = a then unlistedByte a else Memory.read m c := by
  induction m with
  | nil => simp only [Memory.drop, List.filter_nil, Memory.read]; split <;> simp_all
  | cons p m ih =>
    obtain ⟨b, w⟩ := p
    simp only [Memory.drop] at ih
    simp only [Memory.drop, List.filter_cons]
    by_cases hb : b = a
    · subst hb
      simp only [bne_self_eq_false, Bool.false_eq_true, if_false, ih, Memory.read]
      split <;> rfl
    · simp only [bne_iff_ne, ne_eq, hb, not_false_eq_true, if_true, Memory.read, ih]
      split
      · rw [if_neg (by omega)]
      · rfl

/-- A read after a write gives the value written there and what stood before anywhere else (R39). -/
@[simp] theorem Memory.read_write (m : Memory) (a : Nat) (v : Byte) (c : Nat) :
    (m.write a v).read c = if c = a then v else m.read c := by
  rw [Memory.write]
  split
  · rw [Memory.read_drop]; simp_all
  · exact Memory.read_put m a v c

/-- A read after a block write: the block's byte inside it, what stood before outside (R32). -/
theorem Memory.read_writeBytes (m : Memory) (a : Nat) (bs : List Byte) (c : Nat) :
    (m.writeBytes a bs).read c = if a ≤ c ∧ c < a + bs.length then bs.getD (c - a) 0 else m.read c := by
  induction bs generalizing m a with
  | nil => simp only [Memory.writeBytes, List.length_nil]; rw [if_neg (by omega)]
  | cons b bs ih =>
    simp only [Memory.writeBytes, ih, Memory.read_write, List.length_cons]
    by_cases h1 : c = a
    · subst h1
      rw [if_neg (by omega), if_pos rfl, if_pos (by omega), Nat.sub_self]; rfl
    · by_cases h2 : a ≤ c ∧ c < a + (bs.length + 1)
      · rw [if_pos (by omega), if_pos h2, show c - a = (c - (a + 1)) + 1 by omega]; rfl
      · rw [if_neg (by omega), if_neg h1, if_neg h2]

theorem Memory.read_writeBytes_outside (m : Memory) (a : Nat) (bs : List Byte) (c : Nat)
    (h : c < a ∨ a + bs.length ≤ c) : (m.writeBytes a bs).read c = m.read c := by
  rw [Memory.read_writeBytes, if_neg (by omega)]

theorem Memory.length_readBytes (m : Memory) (a n : Nat) : (m.readBytes a n).length = n := by
  simp only [Memory.readBytes, List.length_map, List.length_range]

theorem Memory.getElem?_readBytes (m : Memory) (a n r : Nat) (h : r < n) :
    (m.readBytes a n)[r]? = some (m.read (a + r)) := by
  simp only [Memory.readBytes, List.getElem?_map, List.getElem?_range h, Option.map_some]

/-! ## The canonical form -/

theorem Memory.wf_cons {a : Nat} {v : Byte} {m : Memory} :
    Memory.wf ((a, v) :: m) = true ↔
      a < Config.memSize ∧ v ≠ unlistedByte a ∧ (∀ c ∈ m, a < c.1) ∧ Memory.wf m = true := by
  simp only [Memory.wf, Bool.and_eq_true, decide_eq_true_eq, List.all_eq_true, and_assoc]

theorem Memory.mem_put {m : Memory} {a : Nat} {v : Byte} {c : Host.Cell} (h : c ∈ Memory.put m a v) :
    c = (a, v) ∨ c ∈ m := by
  induction m with
  | nil => exact .inl (by simpa only [Memory.put, List.mem_singleton] using h)
  | cons p m ih =>
    obtain ⟨b, w⟩ := p
    simp only [Memory.put] at h
    split at h
    · exact (List.mem_cons.mp h)
    · split at h
      · rcases List.mem_cons.mp h with h | h
        · exact .inl h
        · exact .inr (List.mem_cons_of_mem _ h)
      · rcases List.mem_cons.mp h with h | h
        · exact .inr (h ▸ List.mem_cons_self)
        · exact (ih h).imp_right (List.mem_cons_of_mem _)

theorem Memory.wf_put {m : Memory} {a : Nat} {v : Byte} (hm : m.wf = true) (ha : a < Config.memSize)
    (hv : v ≠ unlistedByte a) : Memory.wf (Memory.put m a v) = true := by
  induction m with
  | nil => exact Memory.wf_cons.mpr ⟨ha, hv, fun c hc => absurd hc List.not_mem_nil, rfl⟩
  | cons p m ih =>
    obtain ⟨b, w⟩ := p
    obtain ⟨hb, hw, hlt, hm'⟩ := Memory.wf_cons.mp hm
    simp only [Memory.put]
    split
    · rename_i hab
      refine Memory.wf_cons.mpr ⟨ha, hv, fun c hc => ?_, hm⟩
      rcases List.mem_cons.mp hc with rfl | hc
      · exact hab
      · exact Nat.lt_trans hab (hlt c hc)
    · split
      · rename_i hab
        subst hab
        exact Memory.wf_cons.mpr ⟨ha, hv, hlt, hm'⟩
      · refine Memory.wf_cons.mpr ⟨hb, hw, fun c hc => ?_, ih hm'⟩
        rcases Memory.mem_put hc with rfl | hc
        · show b < a; omega
        · exact hlt c hc

theorem Memory.wf_drop {m : Memory} (a : Nat) (hm : m.wf = true) : (m.drop a).wf = true := by
  induction m with
  | nil => rfl
  | cons p m ih =>
    obtain ⟨b, w⟩ := p
    obtain ⟨hb, hw, hlt, hm'⟩ := Memory.wf_cons.mp hm
    simp only [Memory.drop] at ih
    simp only [Memory.drop, List.filter_cons]
    split
    · exact Memory.wf_cons.mpr ⟨hb, hw, fun c hc => hlt c (List.mem_filter.mp hc).1, ih hm'⟩
    · exact ih hm'

/-- A write inside MEM keeps the canonical form. -/
theorem Memory.wf_write {m : Memory} {a : Nat} (v : Byte) (hm : m.wf = true) (ha : a < Config.memSize) :
    (m.write a v).wf = true := by
  rw [Memory.write]
  split
  · exact Memory.wf_drop a hm
  · exact Memory.wf_put hm ha ‹_›

/-- A block write inside MEM keeps the canonical form. -/
theorem Memory.wf_writeBytes {m : Memory} {a : Nat} {bs : List Byte} (hm : m.wf = true)
    (ha : a + bs.length ≤ Config.memSize) : (m.writeBytes a bs).wf = true := by
  induction bs generalizing m a with
  | nil => exact hm
  | cons b bs ih =>
    simp only [List.length_cons] at ha
    exact ih (Memory.wf_write b hm (by omega)) (by omega)

/-- Reset's memory lists nothing. -/
theorem Memory.wf_reset : State.reset.mem.wf = true := rfl

end Sys2Proof.Machine
end

