-- ==== Sys2Proof/Laws/Ops.lean ====
section
/-! SUPPORT. One lemma per shared operation that says everything it can do: the stack, the bound and index checks,
KeyPick, the register block, fetch, the counting down of a timer. -/

namespace Sys2Proof.Machine

/-! ## The stack -/

/-- A push with a free slot (R73). -/
theorem State.push_next {s : State} (a target : Word) (h : s.sp.toNat < 16) :
    s.push a target = .next { s with stack := s.stack.set s.sp.toNat a, sp := s.sp + 1, pc := target } := by
  rw [State.push, dif_pos h]

/-- A push with no free slot (R133). -/
theorem State.push_full {s : State} (a target : Word) (h : s.sp = 16) :
    s.push a target = .next (s.raise .stackOverflow) := by
  rw [State.push, dif_neg (by rw [h]; decide), if_pos h]

/-- A push beyond the legal stack pointers. -/
theorem State.push_outOfRange {s : State} (a target : Word) (h : 16 < s.sp.toNat) :
    s.push a target = .fault (.stackPointerOutOfRange s.sp) := by
  rw [State.push, dif_neg (by omega), if_neg]
  intro h'; rw [h'] at h; exact absurd h (by decide)

/-- A pop from an empty stack (R134). -/
theorem State.pop_empty {s : State} (h : s.sp = 0) : s.pop = .next (s.raise .stackUnderflow) := by
  rw [State.pop, if_pos h]

/-- A pop of a return address (R71). -/
theorem State.pop_next {s : State} (h0 : s.sp ≠ 0) (h : s.sp.toNat - 1 < 16) :
    s.pop = .next { s with sp := s.sp - 1, pc := s.stack[s.sp.toNat - 1] + 2 } := by
  rw [State.pop, if_neg h0, dif_pos h]

/-- A pop beyond the legal stack pointers. -/
theorem State.pop_outOfRange {s : State} (h : 16 < s.sp.toNat) : s.pop = .fault (.stackPointerOutOfRange s.sp) := by
  rw [State.pop, if_neg, dif_neg (by omega)]
  intro h'; rw [h'] at h; exact absurd h (by decide)

/-! ## The checks before an instruction's writes -/

theorem State.dataInBounds_iff (s : State) (n : Nat) :
    s.dataInBounds n = true ↔ n = 0 ∨ s.i.toNat + n - 1 ≤ 0xFFF := by
  simp only [State.dataInBounds, decide_eq_true_eq]

/-- The bound check passes (R35). -/
theorem State.guardData_next {s : State} {n : Nat} (go : State) (h : n = 0 ∨ s.i.toNat + n - 1 ≤ 0xFFF) :
    s.guardData n go = .next go := by
  rw [State.guardData, if_pos ((s.dataInBounds_iff n).mpr h)]

/-- The bound check raises F_DATA_OOB (R132). -/
theorem State.guardData_raise {s : State} {n : Nat} (go : State) (hn : n ≠ 0) (h : 0xFFF < s.i.toNat + n - 1) :
    s.guardData n go = .next (s.raise .dataOob) := by
  rw [State.guardData, if_neg]
  intro h'
  rcases (s.dataInBounds_iff n).mp h' with h'' | h'' <;> omega

/-- The key-index check passes (R120). -/
theorem State.withKeyIndex_next {s : State} {x : Reg} (go : Key → State) (h : (s.getV x).toNat < 16) :
    s.withKeyIndex x go = .next (go ⟨(s.getV x).toNat, h⟩) := by
  rw [State.withKeyIndex, dif_pos h]

/-- The key-index check raises F_KEY_INDEX (R135). -/
theorem State.withKeyIndex_raise {s : State} {x : Reg} (go : Key → State) (h : 15 < (s.getV x).toNat) :
    s.withKeyIndex x go = .next (s.raise .keyIndex) := by
  rw [State.withKeyIndex, dif_neg (by omega)]

/-! ## Keys -/

@[simp] theorem State.mem_pressed (s : State) (k : Key) : k ∈ s.pressed ↔ s.keyDown k = true := by
  simp only [State.pressed, List.mem_filter, List.mem_finRange, true_and]

theorem State.nodup_pressed (s : State) : s.pressed.Nodup := (List.nodup_finRange 16).filter _

/-- KeyPick picks a member, whatever the choice (R122 (c)). -/
theorem pickWith_mem {c : List Key → Nat} {l : List Key} {k : Key} (h : pickWith c l = some k) : k ∈ l := by
  match l, h with
  | [j], h => exact List.mem_singleton.mpr (Option.some.inj h).symm
  | _ :: _ :: _, h => exact List.mem_of_getElem? h

/-- KeyPick picks nothing exactly from the empty set. -/
theorem pickWith_eq_none {c : List Key → Nat} {l : List Key} : pickWith c l = none ↔ l = [] := by
  match l with
  | [] => exact iff_of_true rfl rfl
  | [_] => exact iff_of_false nofun nofun
  | a :: b :: l =>
    refine iff_of_false ?_ nofun
    rw [pickWith, List.getElem?_eq_none_iff]
    exact Nat.not_le.mpr (Nat.mod_lt _ (by simp))

/-- Every function from pressed sets to their members is the KeyPick of some choice: the free value leaves none out. -/
theorem pickWith_complete (f : List Key → Key) (hf : ∀ l, l ≠ [] → f l ∈ l) :
    ∃ c, ∀ l, l ≠ [] → pickWith c l = some (f l) := by
  refine ⟨fun l => l.idxOf (f l), fun l hl => ?_⟩
  match l, hl with
  | [a], hl => rw [List.mem_singleton.mp (hf _ hl)]; rfl
  | a :: b :: l, hl =>
    have h := List.idxOf_lt_length_of_mem (hf _ hl)
    rw [pickWith, Nat.mod_eq_of_lt h, List.getElem?_eq_getElem h, List.getElem_idxOf]

/-! ## The register block -/

theorem State.length_block (s : State) (x : Reg) : (s.block x).length = x.val + 1 := by
  simp only [State.block, List.length_take, Vector.length_toList]; omega

theorem State.getD_block (s : State) (x : Reg) {j : Reg} (h : j ≤ x) : (s.block x).getD j.val 0 = s.getV j := by
  have h1 : j.val < x.val + 1 := Nat.lt_succ_of_le h
  have h2 : j.val < s.v.toList.length := by simp only [Vector.length_toList]; omega
  rw [List.getD_eq_getElem?_getD, State.block, List.getElem?_take_of_lt h1, List.getElem?_eq_getElem h2]
  rfl

/-- Fx65's loads, one register at a time (R106). -/
theorem State.getV_loadBlock (s : State) (x : Reg) (a : Nat) (j : Reg) :
    (s.loadBlock x a).getV j = if j ≤ x then s.mem.read (a + j.val) else s.getV j := by
  simp only [State.getV, State.loadBlock, Vector.getElem_ofFn, Fin.eta]

/-! ## Fetch -/

/-- Fetch reads two bytes, the first in the high half (R31, R62). -/
theorem State.fetch_some {s : State} (h : s.pc.toNat < 0x0FFF) :
    s.fetch = some (wordOfBytes (s.mem.read s.pc.toNat) (s.mem.read (s.pc.toNat + 1))) := by
  rw [State.fetch, if_neg (by omega)]

/-- Fetch fails exactly from PC = 0x0FFF up (R34). -/
theorem State.fetch_eq_none {s : State} : s.fetch = none ↔ 0x0FFF ≤ s.pc.toNat := by
  rw [State.fetch]; split <;> simp_all

/-- A word placed at PC is what the next fetch reads. -/
theorem State.fetch_placeWord {s : State} (w : Word) (h : s.pc.toNat < 0x0FFF) : (s.placeWord w).fetch = some w := by
  have hp : s.placeWord w = s.setMem (s.mem.writeBytes s.pc.toNat [highByte w, lowByte w]) := by
    rw [State.placeWord, if_neg (by omega)]
  rw [State.fetch_some (by rw [hp]; exact h), hp]
  simp only [State.setMem_mem, State.setMem_pc, Memory.read_writeBytes, List.length_cons, List.length_nil]
  rw [if_pos (by omega), if_pos (by omega), Nat.sub_self, Nat.add_sub_cancel_left]
  exact congrArg some (wordOfBytes_high_low w)

/-! ## Timers -/

/-- A timer counts down by one and stays at zero (R65). -/
theorem countDown_toNat (b : Byte) : (countDown b).toNat = b.toNat - 1 := by
  rw [countDown]
  split
  · subst b; rfl
  · rename_i h
    have h' : b.toNat ≠ 0 := fun h' => h (BitVec.eq_of_toNat_eq h')
    have := b.isLt
    rw [BitVec.toNat_sub]; simp; omega

end Sys2Proof.Machine
end

