-- ==== Sys2Proof/Laws/Cycle.lean ====
section
/-! SUPPORT. Everything a STEP can do, said once: four ways to a next state, and a stop only where the instruction's own
meaning stops. Proofs about every step go through `cycle_next_cases` and never unfold `cycle`. -/

namespace Sys2Proof.Machine

theorem closeStep_next {t : State} (h : t.halt = false) : closeStep (.next t) = .next (t.finish none) := by
  rw [closeStep, if_neg (by rw [h]; exact Bool.false_ne_true)]

theorem closeStep_halted {t : State} (h : t.halt = true) :
    closeStep (.next t) = .next (t, faultOutput t.cause) := by
  rw [closeStep, if_pos h]

theorem cycle_of_halted {s : State} (h : s.halt = true) : cycle s = .next (s, faultOutput s.cause) := by
  rw [cycle, if_pos h]

theorem cycle_of_fetch_none {s : State} (h : s.halt = false) (hf : s.fetch = none) :
    cycle s = .next (s.raise .fetchOob, faultOutput .fetchOob) := by
  simp only [cycle, h, hf, Bool.false_eq_true, if_false]

theorem cycle_of_unrecognized {s : State} {w : Word} {e : Reject} (h : s.halt = false) (hf : s.fetch = some w)
    (hd : decodeWord w = .error e) : cycle s = .next (s.skipUnrecognized w) := by
  simp only [cycle, h, hf, hd, Bool.false_eq_true, if_false]

theorem cycle_of_instr {s : State} {w : Word} {i : Instr} (h : s.halt = false) (hf : s.fetch = some w)
    (hd : decodeWord w = .ok i) : cycle s = closeStep (exec i s) := by
  simp only [cycle, h, hf, hd, Bool.false_eq_true, if_false]

/-- The ways a STEP answers a next state: halted before, unfetchable PC, unrecognized word, an instruction that completed
and the timer update, an instruction that raised a fatal fault (R60). -/
theorem cycle_next_cases {s t : State} {o : StepOutput} (h : cycle s = .next (t, o)) :
    (s.halt = true ∧ t = s ∧ o = faultOutput s.cause) ∨
    (s.halt = false ∧ s.fetch = none ∧ t = s.raise .fetchOob ∧ o = faultOutput .fetchOob) ∨
    (∃ w e, s.halt = false ∧ s.fetch = some w ∧ decodeWord w = .error e ∧ (t, o) = s.skipUnrecognized w) ∨
    (∃ w i u, s.halt = false ∧ s.fetch = some w ∧ decodeWord w = .ok i ∧ exec i s = .next u ∧ u.halt = false ∧
      (t, o) = u.finish none) ∨
    (∃ w i, s.halt = false ∧ s.fetch = some w ∧ decodeWord w = .ok i ∧ exec i s = .next t ∧ t.halt = true ∧
      o = faultOutput t.cause) := by
  cases hh : s.halt with
  | true => rw [cycle_of_halted hh] at h; cases h; exact .inl ⟨rfl, rfl, rfl⟩
  | false =>
    cases hf : s.fetch with
    | none => rw [cycle_of_fetch_none hh hf] at h; cases h; exact .inr (.inl ⟨rfl, rfl, rfl, rfl⟩)
    | some w =>
      cases hd : decodeWord w with
      | error e =>
        rw [cycle_of_unrecognized hh hf hd] at h
        exact .inr (.inr (.inl ⟨w, e, rfl, rfl, hd, (Host.Outcome.next.inj h).symm⟩))
      | ok i =>
        rw [cycle_of_instr hh hf hd] at h
        cases he : exec i s with
        | next u =>
          rw [he] at h
          cases hu : u.halt with
          | false =>
            rw [closeStep_next hu] at h
            exact .inr (.inr (.inr (.inl ⟨w, i, u, rfl, rfl, hd, he, hu, (Host.Outcome.next.inj h).symm⟩)))
          | true =>
            rw [closeStep_halted hu] at h
            cases h
            exact .inr (.inr (.inr (.inr ⟨w, i, rfl, rfl, hd, he, hu, rfl⟩)))
        | fault r => rw [he] at h; exact nomatch h
        | refused r => rw [he] at h; exact nomatch h

/-- `step` is the state part of `cycle`. -/
theorem step_eq_next {s t : State} : step s = .next t ↔ ∃ o, cycle s = .next (t, o) := by
  rw [step]
  cases cycle s with
  | next p =>
    obtain ⟨u, o⟩ := p
    constructor
    · intro h; cases h; exact ⟨o, rfl⟩
    · rintro ⟨_, h⟩; cases h; rfl
  | fault r => exact iff_of_false nofun (fun ⟨_, h⟩ => nomatch h)
  | refused r => exact iff_of_false nofun (fun ⟨_, h⟩ => nomatch h)

end Sys2Proof.Machine
end

