-- ==== Sys2Proof/Laws/Display.lean ====
section
/-! SUPPORT. The display: one cell after a flip, and what drawing a list of pixels does, said once. -/

namespace Sys2Proof.Machine

@[simp] theorem Display.cell_blank (k : Nat) : Display.blank.cell k = false := by
  simp only [Display.cell, Display.blank, Vector.getElem_replicate]
  split <;> simp

theorem Display.cell_beyond (d : Display) {k : Nat} (h : 2048 ≤ k) : d.cell k = false := by
  simp only [Display.cell]
  rw [dif_neg (by omega)]

/-- A flip turns over its own cell and no other (R111 (f)). -/
theorem Display.cell_flip (d : Display) (k j : Nat) :
    (d.flip k).cell j = if k = j ∧ j < 2048 then !d.cell j else d.cell j := by
  by_cases hj : j / 64 < 32
  · simp only [Display.cell, Display.flip]
    by_cases hk : k / 64 < 32
    · simp only [dif_pos hj, dif_pos hk, Vector.getElem_set]
      by_cases hr : k / 64 = j / 64
      · simp only [hr, if_true, BitVec.getLsbD_xor, BitVec.getLsbD_twoPow]
        have hjm : j % 64 < 64 := Nat.mod_lt _ (by omega)
        by_cases hkj : k = j
        · subst hkj; rw [if_pos ⟨rfl, by omega⟩]; simp [hjm]
        · rw [if_neg (fun h => hkj h.1)]
          have : ¬ k % 64 = j % 64 := by omega
          simp [this]
      · rw [if_neg hr, if_neg (by rintro ⟨rfl, _⟩; exact hr rfl)]
    · simp only [dif_neg hk, dif_pos hj]; rw [if_neg (by rintro ⟨rfl, _⟩; exact hk hj)]
  · rw [if_neg (by omega), Display.cell_beyond _ (by omega), Display.cell_beyond _ (by omega)]

theorem drawPixels_append_aux (p : Display × Bool) (ks : List Nat) (hks : ks.Nodup) :
    (∀ j, (ks.foldl drawPixel p).1.cell j = if j ∈ ks ∧ j < 2048 then !p.1.cell j else p.1.cell j) ∧
    ((ks.foldl drawPixel p).2 = true ↔ p.2 = true ∨ ∃ k ∈ ks, k < 2048 ∧ p.1.cell k = true) := by
  induction ks generalizing p with
  | nil => simp
  | cons k ks ih =>
    obtain ⟨hk, hks⟩ := List.nodup_cons.mp hks
    obtain ⟨hc, hh⟩ := ih (drawPixel p k) hks
    simp only [List.foldl_cons, hc, hh]
    constructor
    · intro j
      by_cases hk' : k ≤ 2047
      · simp only [drawPixel, if_pos hk', Display.cell_flip, List.mem_cons]
        by_cases hjk : j = k
        · subst hjk; simp [hk]
        · have : ¬ k = j := fun h => hjk h.symm
          simp [this, hjk]
      · simp only [drawPixel, if_neg hk', List.mem_cons]
        by_cases hj : j < 2048
        · have : ¬ j = k := by omega
          simp [this]
        · simp [hj]
    · simp only [drawPixel]
      split
      · rename_i h
        have hflip : ∀ l ∈ ks, (p.1.flip k).cell l = p.1.cell l := by
          intro l hl
          rw [Display.cell_flip, if_neg]
          rintro ⟨rfl, _⟩
          exact hk hl
        simp only [Bool.or_eq_true, List.mem_cons, exists_eq_or_imp]
        constructor
        · rintro ((h1 | h1) | ⟨l, hl, hl', h1⟩)
          · exact .inl h1
          · exact .inr (.inl ⟨by omega, h1⟩)
          · exact .inr (.inr ⟨l, hl, hl', by rw [← hflip l hl]; exact h1⟩)
        · rintro (h1 | ⟨_, h1⟩ | ⟨l, hl, hl', h1⟩)
          · exact .inl (.inl h1)
          · exact .inl (.inr h1)
          · exact .inr ⟨l, hl, hl', by rw [hflip l hl]; exact h1⟩
      · rename_i h
        simp only [List.mem_cons, exists_eq_or_imp]
        constructor
        · rintro (h1 | h1)
          · exact .inl h1
          · exact .inr (.inr h1)
        · rintro (h1 | ⟨h0, _⟩ | h1)
          · exact .inl h1
          · omega
          · exact .inr h1

/-- Drawing distinct pixels turns over exactly their cells, those beyond the bitmap left out (R111 (c), (f)). -/
theorem cell_drawPixels (d : Display) {ks : List Nat} (hks : ks.Nodup) (j : Nat) :
    (drawPixels d ks).1.cell j = if j ∈ ks ∧ j < 2048 then !d.cell j else d.cell j :=
  (drawPixels_append_aux (d, false) ks hks).1 j

/-- Drawing collides exactly when a pixel's cell was lit before (R111). -/
theorem hit_drawPixels (d : Display) {ks : List Nat} (hks : ks.Nodup) :
    (drawPixels d ks).2 = true ↔ ∃ k ∈ ks, k < 2048 ∧ d.cell k = true := by
  have h := (drawPixels_append_aux (d, false) ks hks).2
  rw [drawPixels, h]; simp

theorem mem_rowPixels {xs ys r k : Nat} {b : Byte} :
    k ∈ rowPixels xs ys r b ↔ ∃ c < 8, b.getLsbD (7 - c) = true ∧ k = pixelIndex xs ys c r := by
  simp only [rowPixels, List.mem_map, List.mem_filter, List.mem_range]
  constructor
  · rintro ⟨c, ⟨hc, hb⟩, rfl⟩; exact ⟨c, hc, hb, rfl⟩
  · rintro ⟨c, hc, hb, rfl⟩; exact ⟨c, ⟨hc, hb⟩, rfl⟩

/-- Which cells a sprite addresses: those of its set bits (R111, R113). -/
theorem mem_spritePixels {xs ys r k : Nat} {bs : List Byte} :
    k ∈ spritePixels xs ys r bs ↔
      ∃ q < bs.length, ∃ c < 8, (bs.getD q 0).getLsbD (7 - c) = true ∧ k = pixelIndex xs ys c (r + q) := by
  induction bs generalizing r with
  | nil => simp [spritePixels]
  | cons b bs ih =>
    simp only [spritePixels, List.mem_append, mem_rowPixels, ih, List.length_cons]
    constructor
    · rintro (⟨c, hc, hb, rfl⟩ | ⟨q, hq, c, hc, hb, rfl⟩)
      · exact ⟨0, by omega, c, hc, hb, by rw [Nat.add_zero]⟩
      · exact ⟨q + 1, by omega, c, hc, hb, by rw [show r + (q + 1) = r + 1 + q by omega]⟩
    · rintro ⟨q, hq, c, hc, hb, rfl⟩
      cases q with
      | zero => exact .inl ⟨c, hc, hb, by rw [Nat.add_zero]⟩
      | succ q => exact .inr ⟨q, by omega, c, hc, hb, by rw [show r + (q + 1) = r + 1 + q by omega]⟩

/-- No sprite addresses a cell twice (R111 (d)). -/
theorem nodup_spritePixels (xs ys r : Nat) (bs : List Byte) : (spritePixels xs ys r bs).Nodup := by
  induction bs generalizing r with
  | nil => exact List.nodup_nil
  | cons b bs ih =>
    simp only [spritePixels]
    refine List.nodup_append.mpr ⟨?_, ih (r + 1), ?_⟩
    · refine (List.nodup_range.filter _).map ?_
      intro c c' h
      simp only [pixelIndex] at h
      omega
    · intro k hk l hl h
      subst h
      obtain ⟨c, hc, _, rfl⟩ := mem_rowPixels.mp hk
      obtain ⟨q, _, c', hc', _, h⟩ := mem_spritePixels.mp hl
      simp only [pixelIndex] at h
      omega

end Sys2Proof.Machine
end

