-- ==== Sys2Proof/Laws/Exec.lean ====
section
/-! SUPPORT. What an instruction can answer, said once: each completed form with its next state, and a fatal fault only on
the instruction's own condition. -/

namespace Sys2Proof.Machine

/-- A passed or failed bound check, read off its answer. -/
theorem State.guardData_cases {s t go : State} {n : Nat} (h : s.guardData n go = .next t) :
    ((n ≠ 0 ∧ 0xFFF < s.i.toNat + n - 1) ∧ t = s.raise .dataOob) ∨
    (¬ (n ≠ 0 ∧ 0xFFF < s.i.toNat + n - 1) ∧ t = go) := by
  by_cases hn : n ≠ 0 ∧ 0xFFF < s.i.toNat + n - 1
  · rw [State.guardData_raise go hn.1 hn.2] at h; exact .inl ⟨hn, (Host.Outcome.next.inj h).symm⟩
  · rw [State.guardData_next go (by omega)] at h; exact .inr ⟨hn, (Host.Outcome.next.inj h).symm⟩

/-- A passed or failed key-index check, read off its answer. -/
theorem State.withKeyIndex_cases {s t : State} {x : Reg} {go : Key → State} (h : s.withKeyIndex x go = .next t) :
    (15 < (s.getV x).toNat ∧ t = s.raise .keyIndex) ∨
    (¬ 15 < (s.getV x).toNat ∧ ∃ k : Key, k.val = (s.getV x).toNat ∧ t = go k) := by
  by_cases hx : (s.getV x).toNat < 16
  · rw [State.withKeyIndex_next go hx] at h
    exact .inr ⟨by omega, ⟨_, hx⟩, rfl, (Host.Outcome.next.inj h).symm⟩
  · rw [State.withKeyIndex_raise go (by omega)] at h; exact .inl ⟨by omega, (Host.Outcome.next.inj h).symm⟩

/-- A push, read off its answer. -/
theorem State.push_cases {s t : State} {a target : Word} (h : s.push a target = .next t) :
    (s.sp.toNat = 16 ∧ t = s.raise .stackOverflow) ∨
    ∃ hs : s.sp.toNat < 16, t = { s with stack := s.stack.set s.sp.toNat a, sp := s.sp + 1, pc := target } := by
  rcases Nat.lt_trichotomy s.sp.toNat 16 with hs | hs | hs
  · rw [State.push_next a target hs] at h; exact .inr ⟨hs, (Host.Outcome.next.inj h).symm⟩
  · rw [State.push_full a target (BitVec.eq_of_toNat_eq hs)] at h
    exact .inl ⟨hs, (Host.Outcome.next.inj h).symm⟩
  · rw [State.push_outOfRange a target hs] at h; exact nomatch h

/-- A pop, read off its answer. -/
theorem State.pop_cases {s t : State} (h : s.pop = .next t) :
    (s.sp.toNat = 0 ∧ t = s.raise .stackUnderflow) ∨
    (s.sp.toNat ≠ 0 ∧ ∃ hs : s.sp.toNat - 1 < 16, t = { s with sp := s.sp - 1, pc := s.stack[s.sp.toNat - 1] + 2 }) := by
  by_cases h0 : s.sp.toNat = 0
  · rw [State.pop_empty (BitVec.eq_of_toNat_eq h0)] at h; exact .inl ⟨h0, (Host.Outcome.next.inj h).symm⟩
  · have h0' : s.sp ≠ 0 := fun e => h0 (congrArg BitVec.toNat e)
    by_cases hs : s.sp.toNat - 1 < 16
    · rw [State.pop_next h0' hs] at h; exact .inr ⟨h0, hs, (Host.Outcome.next.inj h).symm⟩
    · rw [State.pop_outOfRange (by omega)] at h; exact nomatch h

/-- The next state of an instruction that completed, as the rule of each gives it. -/
def Completed (i : Instr) (s t : State) : Prop :=
  match i with
  | .cls => t = (s.redraw Display.blank).advance 2
  | .ret => ∃ hs : s.sp.toNat - 1 < 16, t = { s with sp := s.sp - 1, pc := s.stack[s.sp.toNat - 1] + 2 }
  | .jp nnn => t = s.setPc (addrWord nnn)
  | .call nnn =>
    ∃ hs : s.sp.toNat < 16, t = { s with stack := s.stack.set s.sp.toNat s.pc, sp := s.sp + 1, pc := addrWord nnn }
  | .seImm x kk => t = s.skipIf (s.getV x == kk)
  | .sneImm x kk => t = s.skipIf (s.getV x != kk)
  | .seReg x y => t = s.skipIf (s.getV x == s.getV y)
  | .sneReg x y => t = s.skipIf (s.getV x != s.getV y)
  | .ldImm x kk => t = (s.setV x kk).advance 2
  | .addImm x kk => t = (s.setV x (s.getV x + kk)).advance 2
  | .ldReg x y => t = (s.setV x (s.getV y)).advance 2
  | .orReg x y => t = (s.setV x (s.getV x ||| s.getV y)).advance 2
  | .andReg x y => t = (s.setV x (s.getV x &&& s.getV y)).advance 2
  | .xorReg x y => t = (s.setV x (s.getV x ^^^ s.getV y)).advance 2
  | .addReg x y => t = ((s.setV x (s.getV x + s.getV y)).setFlag (carryFlag (s.getV x) (s.getV y))).advance 2
  | .subReg x y => t = ((s.setV x (s.getV x - s.getV y)).setFlag (greaterFlag (s.getV x) (s.getV y))).advance 2
  | .shr x _ => t = (s.setV x (s.getV x >>> 1)).advance 2
  | .subnReg x y => t = ((s.setV x (s.getV y - s.getV x)).setFlag (greaterFlag (s.getV y) (s.getV x))).advance 2
  | .shl x _ => t = (s.setV x (s.getV x <<< 1)).advance 2
  | .ldI nnn => t = (s.setI (addrWord nnn)).advance 2
  | .jpV0 nnn => t = s.setPc (addrWord nnn + byteWord (s.getV 0) + 2)
  | .rnd x kk => t = (s.countDraw.setV x (s.rndByte &&& kk)).advance 2
  | .drw x y n =>
    t = ((s.redraw (s.drawn (s.getV x) (s.getV y) n).1).setFlag (flagByte (s.drawn (s.getV x) (s.getV y) n).2)).advance 2
  | .skp x => ∃ k : Key, k.val = (s.getV x).toNat ∧ t = s.skipIf (s.keyDown k)
  | .sknp x => ∃ k : Key, k.val = (s.getV x).toNat ∧ t = s.skipIf (!s.keyDown k)
  | .ldVxDt x => t = (s.setV x s.dt).advance 2
  | .ldVxK x =>
    (s.pressed = [] ∧ t = s) ∨ ∃ k ∈ s.pressed, keyPick s.pressed = some k ∧ t = (s.setV x (BitVec.ofNat 8 k.val)).advance 2
  | .ldDtVx x => t = (s.setDt (s.getV x)).advance 2
  | .ldStVx x => t = (s.setSt (s.getV x)).advance 2
  | .addI x => t = (s.setI (s.i + byteWord (s.getV x))).advance 2
  | .ldF x => t = (s.setI (byteWord (s.getV x) * 5)).advance 2
  | .ldB x => t = (s.setMem (s.mem.writeBytes s.i.toNat (decimalDigits (s.getV x)))).advance 2
  | .stRegs x => t = ((s.setMem (s.mem.writeBytes s.i.toNat (s.block x))).bumpI x).advance 2
  | .ldRegs x => t = ((s.loadBlock x s.i.toNat).bumpI x).advance 2

/-- The inversion lemma: an instruction that answers a next state took its own fatal fault or completed. -/
theorem exec_next_cases {i : Instr} {s t : State} (h : exec i s = .next t) :
    (∃ c, faultDue i s = some c ∧ t = s.raise c) ∨ (faultDue i s = none ∧ Completed i s t) := by
  cases i with
  | ret =>
    rcases State.pop_cases h with ⟨h0, rfl⟩ | ⟨h0, hs⟩
    · exact .inl ⟨_, if_pos h0, rfl⟩
    · exact .inr ⟨if_neg h0, hs⟩
  | call nnn =>
    rcases State.push_cases h with ⟨h0, rfl⟩ | ⟨hs, e⟩
    · exact .inl ⟨_, if_pos h0, rfl⟩
    · exact .inr ⟨if_neg (by omega), hs, e⟩
  | drw x y n =>
    rcases State.guardData_cases h with ⟨h0, rfl⟩ | ⟨h0, rfl⟩
    · exact .inl ⟨_, if_pos h0, rfl⟩
    · exact .inr ⟨if_neg h0, rfl⟩
  | skp x =>
    rw [exec, execSkp] at h
    rcases State.withKeyIndex_cases h with ⟨h0, rfl⟩ | ⟨h0, k⟩
    · exact .inl ⟨_, if_pos h0, rfl⟩
    · exact .inr ⟨if_neg h0, k⟩
  | sknp x =>
    rw [exec, execSknp] at h
    rcases State.withKeyIndex_cases h with ⟨h0, rfl⟩ | ⟨h0, k⟩
    · exact .inl ⟨_, if_pos h0, rfl⟩
    · exact .inr ⟨if_neg h0, k⟩
  | ldVxK x =>
    refine .inr ⟨rfl, ?_⟩
    rw [exec, execLdVxK] at h
    cases hk : keyPick s.pressed with
    | none =>
      rw [hk] at h
      exact .inl ⟨pickWith_eq_none.mp hk, (Host.Outcome.next.inj h).symm⟩
    | some k =>
      rw [hk] at h
      exact .inr ⟨k, pickWith_mem hk, hk, (Host.Outcome.next.inj h).symm⟩
  | ldB x =>
    rcases State.guardData_cases h with ⟨h0, rfl⟩ | ⟨h0, rfl⟩
    · exact .inl ⟨_, if_pos (by omega), rfl⟩
    · exact .inr ⟨if_neg (by omega), rfl⟩
  | stRegs x =>
    rcases State.guardData_cases h with ⟨h0, rfl⟩ | ⟨h0, rfl⟩
    · exact .inl ⟨_, if_pos (by omega), rfl⟩
    · exact .inr ⟨if_neg (by omega), rfl⟩
  | ldRegs x =>
    rcases State.guardData_cases h with ⟨h0, rfl⟩ | ⟨h0, rfl⟩
    · exact .inl ⟨_, if_pos (by omega), rfl⟩
    · exact .inr ⟨if_neg (by omega), rfl⟩
  | _ => exact .inr ⟨rfl, (Host.Outcome.next.inj h).symm⟩

end Sys2Proof.Machine
end

