-- ==== Sys2Proof/Laws/PerInstr.lean ====
section
/-! SUPPORT. The per-instruction family EncodedInRow: the encoding of an instruction, under its row's mask, is the row's
pattern (spec/30_encoding.md R50). One lemma per constructor. -/

namespace Sys2Proof.Laws.EncodedInRow

/-- The encoded word lies in the instruction's row of the opcode map. -/
def Statement (i : Instr) : Prop := encode i &&& (opcodeRow i).mask = (opcodeRow i).pattern

theorem cls : Statement (.cls) := rfl
theorem ret : Statement (.ret) := rfl
theorem jp (nnn : Addr) : Statement (.jp nnn) := formatNNN_mask _ _
theorem call (nnn : Addr) : Statement (.call nnn) := formatNNN_mask _ _
theorem seImm (x : Reg) (kk : Byte) : Statement (.seImm x kk) := formatXKK_mask _ _ _
theorem sneImm (x : Reg) (kk : Byte) : Statement (.sneImm x kk) := formatXKK_mask _ _ _
theorem seReg (x : Reg) (y : Reg) : Statement (.seReg x y) := formatXY_mask _ _ _ _
theorem sneReg (x : Reg) (y : Reg) : Statement (.sneReg x y) := formatXY_mask _ _ _ _
theorem ldImm (x : Reg) (kk : Byte) : Statement (.ldImm x kk) := formatXKK_mask _ _ _
theorem addImm (x : Reg) (kk : Byte) : Statement (.addImm x kk) := formatXKK_mask _ _ _
theorem ldReg (x : Reg) (y : Reg) : Statement (.ldReg x y) := formatXY_mask _ _ _ _
theorem orReg (x : Reg) (y : Reg) : Statement (.orReg x y) := formatXY_mask _ _ _ _
theorem andReg (x : Reg) (y : Reg) : Statement (.andReg x y) := formatXY_mask _ _ _ _
theorem xorReg (x : Reg) (y : Reg) : Statement (.xorReg x y) := formatXY_mask _ _ _ _
theorem addReg (x : Reg) (y : Reg) : Statement (.addReg x y) := formatXY_mask _ _ _ _
theorem subReg (x : Reg) (y : Reg) : Statement (.subReg x y) := formatXY_mask _ _ _ _
theorem shr (x : Reg) (y : Reg) : Statement (.shr x y) := formatXY_mask _ _ _ _
theorem subnReg (x : Reg) (y : Reg) : Statement (.subnReg x y) := formatXY_mask _ _ _ _
theorem shl (x : Reg) (y : Reg) : Statement (.shl x y) := formatXY_mask _ _ _ _
theorem ldI (nnn : Addr) : Statement (.ldI nnn) := formatNNN_mask _ _
theorem jpV0 (nnn : Addr) : Statement (.jpV0 nnn) := formatNNN_mask _ _
theorem rnd (x : Reg) (kk : Byte) : Statement (.rnd x kk) := formatXKK_mask _ _ _
theorem drw (x : Reg) (y : Reg) (n : Nat) : Statement (.drw x y n) := formatXYN_mask _ _ _ _
theorem skp (x : Reg) : Statement (.skp x) := formatX_mask _ _ _
theorem sknp (x : Reg) : Statement (.sknp x) := formatX_mask _ _ _
theorem ldVxDt (x : Reg) : Statement (.ldVxDt x) := formatX_mask _ _ _
theorem ldVxK (x : Reg) : Statement (.ldVxK x) := formatX_mask _ _ _
theorem ldDtVx (x : Reg) : Statement (.ldDtVx x) := formatX_mask _ _ _
theorem ldStVx (x : Reg) : Statement (.ldStVx x) := formatX_mask _ _ _
theorem addI (x : Reg) : Statement (.addI x) := formatX_mask _ _ _
theorem ldF (x : Reg) : Statement (.ldF x) := formatX_mask _ _ _
theorem ldB (x : Reg) : Statement (.ldB x) := formatX_mask _ _ _
theorem stRegs (x : Reg) : Statement (.stRegs x) := formatX_mask _ _ _
theorem ldRegs (x : Reg) : Statement (.ldRegs x) := formatX_mask _ _ _

end Sys2Proof.Laws.EncodedInRow
end

