-- ==== Sys2Proof/Tests/Slice0.lean ====
section
/-! SUPPORT. Tests: the well-formedness smoke tests, the decoding of every constructor by a word written out bit by bit
from the encodings of spec/30_encoding.md, at most two steps per instruction with results from spec/95_test_vectors.md
(the vector's name stands before each), and a witness for the hypotheses of every statement. -/

namespace Sys2Proof.Tests
open Sys2Proof.Machine

set_option Elab.async false

/-! ## Well-formedness -/

theorem test_drw_15_rows_wellFormed : (Instr.drw 15 15 15).wellFormed = true := by decide
theorem test_drw_16_rows_illFormed : (Instr.drw 0 0 16).wellFormed = false := by decide

/-- T8: 4096 − 512 bytes are an image. -/
theorem test_largest_image_wellFormed : imageWellFormed (List.replicate 3584 0) = true := by
  simp only [imageWellFormed, List.length_replicate]; decide

/-- T8: one byte more is none. -/
theorem test_larger_image_illFormed : imageWellFormed (List.replicate 3585 0) = false := by
  simp only [imageWellFormed, List.length_replicate]; decide

/-! ## Decoding: the nibbles `op`, `x` or `nnn`, `y` or `kk`, `n`, written out -/

theorem test_decode_family0 :
    decodeWord 0b0000000011100000 = .ok .cls ∧ decodeWord 0b0000000011101110 = .ok .ret := by decide

theorem test_decode_jumps :
    decodeWord 0b0001001000000100 = .ok (.jp 0x204) ∧ decodeWord 0b0010101010111100 = .ok (.call 0xABC) ∧
    decodeWord 0b1011001100000001 = .ok (.jpV0 0x301) := by decide

theorem test_decode_skips :
    decodeWord 0b0011001100101010 = .ok (.seImm 3 0x2A) ∧ decodeWord 0b0100001100101010 = .ok (.sneImm 3 0x2A) ∧
    decodeWord 0b0101000100100000 = .ok (.seReg 1 2) ∧ decodeWord 0b1001000100100000 = .ok (.sneReg 1 2) := by decide

theorem test_decode_immediates :
    decodeWord 0b0110000000010100 = .ok (.ldImm 0 0x14) ∧ decodeWord 0b0111101000000001 = .ok (.addImm 10 0x01) ∧
    decodeWord 0b1010001000000000 = .ok (.ldI 0x200) ∧ decodeWord 0b1100000100001111 = .ok (.rnd 1 0x0F) := by decide

theorem test_decode_family8 :
    decodeWord 0b1000000100100000 = .ok (.ldReg 1 2) ∧ decodeWord 0b1000000100100001 = .ok (.orReg 1 2) ∧
    decodeWord 0b1000000100100010 = .ok (.andReg 1 2) ∧ decodeWord 0b1000000100100011 = .ok (.xorReg 1 2) ∧
    decodeWord 0b1000000100100100 = .ok (.addReg 1 2) ∧ decodeWord 0b1000000100100101 = .ok (.subReg 1 2) ∧
    decodeWord 0b1000000100100110 = .ok (.shr 1 2) ∧ decodeWord 0b1000000100100111 = .ok (.subnReg 1 2) ∧
    decodeWord 0b1000000100101110 = .ok (.shl 1 2) := by decide

theorem test_decode_draw_and_keys :
    decodeWord 0b1101000100100101 = .ok (.drw 1 2 5) ∧ decodeWord 0b1110001010011110 = .ok (.skp 2) ∧
    decodeWord 0b1110001010100001 = .ok (.sknp 2) := by decide

theorem test_decode_familyF :
    decodeWord 0b1111000100000111 = .ok (.ldVxDt 1) ∧ decodeWord 0b1111001000001010 = .ok (.ldVxK 2) ∧
    decodeWord 0b1111000000010101 = .ok (.ldDtVx 0) ∧ decodeWord 0b1111000000011000 = .ok (.ldStVx 0) ∧
    decodeWord 0b1111001000011110 = .ok (.addI 2) ∧ decodeWord 0b1111010000101001 = .ok (.ldF 4) ∧
    decodeWord 0b1111000000110011 = .ok (.ldB 0) ∧ decodeWord 0b1111001001010101 = .ok (.stRegs 2) ∧
    decodeWord 0b1111001001100101 = .ok (.ldRegs 2) := by decide

/-- S1, S3 to S6: words that are close to an instruction and none. -/
theorem test_decode_unrecognized :
    decodeWord 0x0000 = .error .family0 ∧ decodeWord 0x5121 = .error .family5 ∧ decodeWord 0x8128 = .error .family8 ∧
    decodeWord 0x912F = .error .family9 ∧ decodeWord 0xE19F = .error .familyE ∧ decodeWord 0xF1FF = .error .familyF := by
  decide

theorem test_decode_bytes_high_first :
    decodeBytes [0x60, 0x14, 0xA2] = .ok (.ldImm 0 0x14, [0xA2]) ∧ decodeBytes [0x60] = .error .truncated ∧
    decodeTableWord 16 0x6014 = some (.ldImm 0 0x14) := by decide

/-! ## One step of each instruction -/

/-- The registers `bs`, the rest zero. -/
def regs (bs : List Byte) : Vector Byte 16 := Vector.ofFn (fun j => bs.getD j.val 0)

/-- The registers of `regs` with `f` in VF. -/
def regsFlag (bs : List Byte) (f : Byte) : Vector Byte 16 := (regs bs).set 15 f

/-- Place `w` at PC, run one STEP, and read `f` off the next state. -/
def after {α : Type} (s : State) (w : Word) (f : State → α) : Option α :=
  match step (s.withFetchWord 16 w.toNat) with
  | .next t => some (f t)
  | _ => none

/-- The `status`, `tone` and `diag` of one STEP on `w`. -/
def outputs (s : State) (w : Word) : Option StepOutput :=
  match cycle (s.withFetchWord 16 w.toNat) with
  | .next p => some p.2
  | _ => none

/-- The reset state at another PC. -/
def atPc (pc : Word) : State := { State.reset with pc := pc }

/-- The reset state with register values. -/
def withV (bs : List Byte) : State := { State.reset with v := regs bs }

/-- Some cells of FB as numbers. -/
def litAmong (d : Display) (ks : List Nat) : List Nat := ks.filter d.cell

/-- G1. -/
theorem test_cls :
    after { State.reset with fb := (Display.blank.flip 5).flip 2047 } 0x00E0
      (fun t => (decide (t.fb = Display.blank), t.dirty, t.pc)) = some (true, true, 0x202) := by decide +kernel

/-- C1. -/
theorem test_ret :
    after { State.reset with pc := 0x212, sp := 1, stack := State.reset.stack.set 0 0x204 } 0x00EE
      (fun t => (t.sp, t.pc, t.stack[0])) = some (0, 0x206, 0x204) := by decide +kernel

/-- C2. -/
theorem test_ret_underflow :
    after State.reset 0x00EE (fun t => (t.halt, causeCode t.cause, t.pc, t.sp)) = some (true, 4, 0x200, 0) := by
  decide +kernel

/-- C4. -/
theorem test_jp : after (atPc 0x20A) 0x1204 State.pc = some 0x204 := by decide +kernel

/-- C7. -/
theorem test_call_last_slot :
    after { State.reset with pc := 0x456, sp := 15 } 0x2ABC (fun t => (t.stack[15], t.sp, t.pc)) = some (0x456, 16, 0xABC) := by
  decide +kernel

/-- C8. -/
theorem test_call_overflow :
    after { State.reset with pc := 0x456, sp := 16 } 0x2ABC (fun t => (t.halt, causeCode t.cause, t.sp, t.pc)) =
      some (true, 3, 16, 0x456) := by decide +kernel

/-- C9, C10 with V3 = 2A and 2B. -/
theorem test_seImm : after (withV [0, 0, 0, 0x2A]) 0x332A State.pc = some 0x204 := by decide +kernel
theorem test_seImm_not : after (withV [0, 0, 0, 0x2B]) 0x332A State.pc = some 0x202 := by decide +kernel

/-- C11, C12. -/
theorem test_sneImm_not : after (withV [0, 0, 0, 0x2A]) 0x432A State.pc = some 0x202 := by decide +kernel
theorem test_sneImm : after (withV []) 0x432A State.pc = some 0x204 := by decide +kernel

/-- C13, C14. -/
theorem test_seReg : after (withV [0, 7, 7]) 0x5120 State.pc = some 0x204 := by decide +kernel
theorem test_seReg_not : after (withV [0, 7, 8]) 0x5120 State.pc = some 0x202 := by decide +kernel

/-- C16, C17. -/
theorem test_sneReg : after (withV [0, 7, 8]) 0x9120 State.pc = some 0x204 := by decide +kernel
theorem test_sneReg_not : after (withV [0, 7, 7]) 0x9120 State.pc = some 0x202 := by decide +kernel

/-- A1. -/
theorem test_ldImm : after State.reset 0x6A55 (fun t => (t.getV 10, t.pc)) = some (0x55, 0x202) := by decide +kernel

/-- A5: the wrapped sum goes to VF, and no flag. -/
theorem test_addImm_wraps : after { State.reset with v := regsFlag [] 0xFF } 0x7F01 (State.getV · 15) = some 0 := by
  decide +kernel

/-- A6. -/
theorem test_ldReg : after (withV [0, 1, 0x99]) 0x8120 (State.getV · 1) = some 0x99 := by decide +kernel

/-- A7, A8, A9. -/
theorem test_orReg :
    after { State.reset with v := regsFlag [0, 0xF0, 0x0F] 1 } 0x8121 (fun t => (t.getV 1, t.getV 15)) = some (0xFF, 1) := by
  decide +kernel
theorem test_andReg :
    after { State.reset with v := regsFlag [0, 0xF0, 0x3C] 1 } 0x8122 (fun t => (t.getV 1, t.getV 15)) = some (0x30, 1) := by
  decide +kernel
theorem test_xorReg :
    after { State.reset with v := regsFlag [0, 0xF0, 0x3C] 1 } 0x8123 (fun t => (t.getV 1, t.getV 15)) = some (0xCC, 1) := by
  decide +kernel

/-- A14; A16: the flag replaces the sum. -/
theorem test_addReg_carry : after (withV [0, 0xFF, 1]) 0x8124 (fun t => (t.getV 1, t.getV 15)) = some (0, 1) := by
  decide +kernel
theorem test_addReg_flag_last : after { State.reset with v := regsFlag [0, 0x20] 0xF0 } 0x8F14 (State.getV · 15) = some 1 := by
  decide +kernel

/-- A20; A21: equal operands give 0. -/
theorem test_subReg_borrow :
    after { State.reset with v := regsFlag [0, 5, 10] 1 } 0x8125 (fun t => (t.getV 1, t.getV 15)) = some (0xFB, 0) := by
  decide +kernel
theorem test_subReg_equal :
    after { State.reset with v := regsFlag [0, 7, 7] 1 } 0x8125 (fun t => (t.getV 1, t.getV 15)) = some (0, 0) := by
  decide +kernel

/-- A26. -/
theorem test_shr_ignores_y :
    after (withV [0, 5, 0xFF]) 0x8126 (fun t => (t.getV 1, t.getV 2, t.getV 15)) = some (2, 0xFF, 0) := by decide +kernel

/-- A23; A25. -/
theorem test_subnReg : after (withV [0, 3, 10]) 0x8127 (fun t => (t.getV 1, t.getV 15)) = some (7, 1) := by decide +kernel
theorem test_subnReg_equal :
    after { State.reset with v := regsFlag [0, 7, 7] 1 } 0x8127 (fun t => (t.getV 1, t.getV 15)) = some (0, 0) := by
  decide +kernel

/-- A28. -/
theorem test_shl_ignores_y :
    after (withV [0, 0x81, 0xFF]) 0x812E (fun t => (t.getV 1, t.getV 2, t.getV 15)) = some (2, 0xFF, 0) := by decide +kernel

/-- M1. -/
theorem test_ldI : after (atPc 0x202) 0xA200 (fun t => (t.i, t.pc)) = some (0x200, 0x204) := by decide +kernel

/-- C18; C19: not masked. -/
theorem test_jpV0 : after (withV [4]) 0xB300 State.pc = some 0x306 := by decide +kernel
theorem test_jpV0_unmasked : after (withV [0xFF]) 0xBFFF State.pc = some 0x1100 := by decide +kernel

/-- A30 and A32, with the random byte a variable: whatever is drawn, what is written is that byte AND kk. -/
theorem test_rnd_masks_the_draw :
    (∀ s : State, exec (.rnd 1 0x0F) s = s.resultRandom s.rndByte 1 0x0F) ∧
    (match (withV [0, 0xFF]).resultRandom 0xA7 1 0x0F with | .next t => t.getV 1 | _ => 0) = 0x07 ∧
    (match (withV [0, 0xFF]).resultRandom 0xA7 1 0xFF with | .next t => t.getV 1 | _ => 0) = 0xA7 :=
  ⟨fun _ => rfl, by decide +kernel, by decide +kernel⟩

/-- G5: no wrap and no clipping at the right edge. -/
theorem test_drw_spills :
    after { State.reset with v := regs [62], i := 0x300, mem := [(0x300, 0xFF)] } 0xD011
      (fun t => (litAmong t.fb [0, 61, 62, 63, 64, 69, 70], t.getV 15, t.dirty)) = some ([62, 63, 64, 69], 0, true) := by
  decide +kernel

/-- G11. -/
theorem test_drw_collides :
    after { State.reset with i := 0x300, mem := [(0x300, 0xC0)], fb := (Display.blank.flip 1).flip 2 } 0xD011
      (fun t => (litAmong t.fb [0, 1, 2, 3], t.getV 15)) = some ([0, 2], 1) := by decide +kernel

/-- G20: under the default FONT, the glyph of 0 is what Dxyn reads from address 0, and it covers these cells. -/
theorem test_default_glyph (h : ∀ a < 5, Config.fontByte a = Config.defaultFont.getD a 0) :
    spritePixels 10 4 0 (State.reset.mem.readBytes 0 5) =
      [266, 267, 268, 269, 330, 333, 394, 397, 458, 461, 522, 523, 524, 525] := by
  have hr : State.reset.mem.readBytes 0 5 = (List.range 5).map (fun a => Config.defaultFont.getD a 0) := by
    apply List.map_congr_left
    intro a ha
    have ha' : a < 5 := List.mem_range.mp ha
    rw [Nat.zero_add, ← h a ha']
    exact if_pos (Nat.lt_trans ha' (by decide))
  rw [hr]; decide +kernel

/-- K1; K5. -/
theorem test_skp :
    after { State.reset with v := regs [0, 0, 7], key := State.reset.key.set 7 true } 0xE29E State.pc = some 0x204 := by
  decide +kernel
theorem test_skp_bad_index :
    after (withV [0, 0, 16]) 0xE29E (fun t => (t.halt, causeCode t.cause, t.pc)) = some (true, 5, 0x200) := by decide +kernel

/-- K3; K4. -/
theorem test_sknp : after (withV [0, 0, 7]) 0xE2A1 State.pc = some 0x204 := by decide +kernel
theorem test_sknp_not :
    after { State.reset with v := regs [0, 0, 7], key := State.reset.key.set 7 true } 0xE2A1 State.pc = some 0x202 := by
  decide +kernel

/-- K8. -/
theorem test_ldVxDt : after { State.reset with dt := 5 } 0xF107 (fun t => (t.getV 1, t.dt)) = some (5, 4) := by decide +kernel

/-- K17: the wait, timers still running; K18: one key, which every KeyPick picks. -/
theorem test_ldVxK_waits :
    after { State.reset with pc := 0x208, dt := 2, st := 1 } 0xF20A (fun t => (t.pc, t.dt, t.st)) = some (0x208, 1, 0) := by
  decide +kernel
theorem test_ldVxK_takes :
    after { State.reset with key := State.reset.key.set 7 true } 0xF20A (fun t => (t.getV 2, t.pc)) = some (7, 0x202) := by
  decide +kernel

/-- K19, K20: with keys 3 and 9 the default KeyPick picks the highest, another one the lowest. -/
theorem test_keyPick :
    pickWith Config.defaultKeyChoice [3, 9] = some 9 ∧ pickWith (fun _ => 0) [3, 9] = some 3 := by decide

/-- K10. -/
theorem test_ldDtVx : after (withV [3]) 0xF015 State.dt = some 2 := by decide +kernel

/-- K14: the tone of the same STEP. -/
theorem test_ldStVx_tone : outputs (withV [1]) 0xF018 = some ⟨.ok, true, none⟩ := by decide +kernel

/-- M3; M4. -/
theorem test_addI : after { withV [0, 0, 1] with i := 0x0FFF } 0xF21E State.i = some 0x1000 := by decide +kernel
theorem test_addI_wraps : after { withV [0, 0, 1] with i := 0xFFFF } 0xF21E State.i = some 0 := by decide +kernel

/-- M6: the whole byte counts. -/
theorem test_ldF : after (withV [0, 0, 0, 0, 0xFF]) 0xF429 State.i = some 0x04FB := by decide +kernel

/-- M10; M11. -/
theorem test_ldB_last :
    after { withV [0x7B] with i := 0xFFD } 0xF033 (fun t => t.mem.readBytes 0xFFD 3) = some [1, 2, 3] := by decide +kernel
theorem test_ldB_bound :
    after { withV [0x7B] with i := 0xFFE } 0xF033 (fun t => (t.halt, causeCode t.cause, t.mem.readBytes 0xFFE 2)) =
      some (true, 2, [0, 0]) := by decide +kernel

/-- M12; M15. -/
theorem test_stRegs :
    after { withV [0x11, 0x22, 0x33, 0x44] with i := 0x400 } 0xF255 (fun t => (t.mem.readBytes 0x400 4, t.i)) =
      some ([0x11, 0x22, 0x33, 0], 0x403) := by decide +kernel
theorem test_stRegs_bound :
    after { State.reset with i := 0xFF1, v := regsFlag [1] 0xEE } 0xFF55 (fun t => (causeCode t.cause, t.mem.read 0xFF1, t.i)) =
      some (2, 0, 0xFF1) := by decide +kernel

/-- M16; M18. -/
theorem test_ldRegs :
    after { withV [0, 0, 0, 0x77] with i := 0x300, mem := [(0x300, 2), (0x301, 5), (0x302, 4), (0x303, 9)] } 0xF265
      (fun t => (t.getV 0, t.getV 1, t.getV 2, t.getV 3, t.i)) = some (2, 5, 4, 0x77, 0x303) := by decide +kernel
theorem test_ldRegs_last :
    after { State.reset with i := 0xFFF, mem := [(0xFFF, 0x5A)] } 0xF065 (fun t => (t.getV 0, t.i)) = some (0x5A, 0x1000) := by
  decide +kernel

/-! ## The step cycle -/

/-- S2: an unrecognized word is reported, and the timers run. -/
theorem test_unrecognized_reported :
    outputs { State.reset with dt := 5, st := 1 } 0x0123 = some ⟨.ok, true, some 0x0123⟩ := by decide +kernel

/-- S8. -/
theorem test_fetch_bound :
    after (atPc 0xFFF) 0x6A55 (fun t => (t.halt, causeCode t.cause, t.pc)) = some (true, 1, 0xFFF) := by decide +kernel

/-- S9: the last word of memory. -/
theorem test_fetch_last_word : after (atPc 0xFFE) 0x6A55 (fun t => (t.getV 10, t.pc)) = some (0x55, 0x1000) := by
  decide +kernel

/-- S11. -/
theorem test_halted :
    outputs { State.reset with halt := true, cause := .stackOverflow, dt := 9, st := 1 } 0x6000 =
      some ⟨.fault .stackOverflow, false, none⟩ := by decide +kernel

/-! ## The host's transactions -/

/-- Read `f` off the end of a schedule and its responses. -/
def ended {α : Type} (schedule : List Transaction) (s : State) (f : State → List Response → α) : Option α :=
  match runSchedule schedule s with
  | .next p => some (f p.1 p.2)
  | _ => none

/-- L4: a shorter image leaves the tail of the longer. -/
theorem test_load_keeps_tail :
    ended [.reset, .load [0x11, 0x22, 0x33, 0x44], .load [0xAA]] State.reset (fun t rs => (t.mem.readBytes 0x200 4, rs)) =
      some ([0xAA, 0x22, 0x33, 0x44], [.done, .loaded true, .loaded true]) := by decide +kernel

/-- X2, X3: the host's transactions work on a halted core, and LOAD does not restart it. -/
theorem test_halted_host :
    ended [.setKey 3 true, .load [0x12, 0x00], .step] (State.reset.raise .stackOverflow)
      (fun t rs => (t.key[3], t.mem.read 0x200, t.halt, causeCode t.cause, rs)) =
      some (true, 0x12, true, 3, [.done, .loaded true, .stepped ⟨.fault .stackOverflow, false, none⟩]) := by decide +kernel

/-- X4: RESET is the exit from a fault. -/
theorem test_reset_restarts :
    ended [.reset, .step] (State.reset.raise .stackOverflow) (fun t rs => (t.halt, causeCode t.cause, t.pc, rs)) =
      some (false, 0, 0x202, [.done, .stepped ⟨.ok, false, some 0x0000⟩]) := by decide +kernel

/-- T4: one 00E0 raises the flag once; ST_SAMPLE changes nothing. -/
theorem test_dirty_consumed_once :
    ended [.load [0x00, 0xE0], .step, .dirtyConsume, .dirtyConsume, .stSample] State.reset (fun _ rs => rs.drop 2) =
      some [.dirty true, .dirty false, .sample 0] := by decide +kernel

/-! ## Witnesses: concrete states and operands that meet the hypotheses of the statements, at their bounds -/

/-- An instruction word at the PC of `s` runs. -/
theorem runs_placeWord {s : State} {w : Word} {i : Instr} (hh : s.halt = false) (hp : s.pc.toNat < 0x0FFF)
    (hd : decodeWord w = .ok i) : Runs (s.placeWord w) i := by
  refine ⟨?_, w, State.fetch_placeWord w hp, hd⟩
  rw [State.placeWord, if_neg (by omega)]; exact hh

/-- The reset state about to run `w`. -/
def about (w : Word) : State := State.reset.placeWord w

theorem witness_DecodeInvertsEncode : (Instr.drw 15 15 15).wellFormed = true ∧ (Instr.drw 0 0 0).wellFormed = true := by decide
theorem witness_EncodeInvertsDecode : decodeWord 0xDFFF = .ok (.drw 15 15 15) ∧ decodeWord 0x00E0 = .ok .cls := by decide
theorem witness_NoWordMatchesTwoRows :
    opcodeRow (.addReg 0 0) ∈ opcodeMap ∧ (0x8124 : Word) &&& (opcodeRow (.addReg 0 0)).mask = (opcodeRow (.addReg 0 0)).pattern := by
  decide
theorem witness_UnrecognizedWordsByFamily :
    decodeWord 0x0FFF = .error .family0 ∧ decodeWord 0x5001 = .error .family5 ∧ decodeWord 0x800F = .error .family8 ∧
    decodeWord 0x900F = .error .family9 ∧ decodeWord 0xE09D = .error .familyE ∧ decodeWord 0xF066 = .error .familyF := by decide
theorem witness_FetchIsBigEndian : (atPc 0xFFE).pc.toNat < 0x0FFF ∧ (atPc 0).pc.toNat < 0x0FFF := by decide

/-- A step that completes, one that faults, and one that the model stops. -/
theorem witness_StepRunsDecodedInstruction :
    (∃ t, decodeBytes [0x60, 0x14] = .ok (.ldImm 0 0x14, []) ∧ exec (.ldImm 0 0x14) (about 0x6014) = .next t ∧ t.halt = false) ∧
    (∃ t, decodeBytes [0x00, 0xEE] = .ok (.ret, []) ∧ exec .ret (about 0x00EE) = .next t ∧ t.halt = true) ∧
    exec .ret { about 0x00EE with sp := 17 } = .fault (.stackPointerOutOfRange 17) ∧
    (about 0x6014).halt = false ∧ (about 0x6014).pc.toNat < 0x0FFF ∧
    [(about 0x6014).mem.read 0x200, (about 0x6014).mem.read 0x201] = [0x60, 0x14] ∧
    [(about 0x00EE).mem.read 0x200, (about 0x00EE).mem.read 0x201] = [0x00, 0xEE] :=
  ⟨⟨_, by decide, rfl, by decide +kernel⟩, ⟨_, by decide, rfl, by decide +kernel⟩, rfl, by decide +kernel, by decide +kernel,
    by decide +kernel, by decide +kernel⟩

theorem witness_HaltedStepChangesNothing : (State.reset.raise .keyIndex).halt = true := rfl
theorem witness_FetchBeyondMemoryFaults : (atPc 0xFFF).halt = false ∧ 0x0FFF ≤ (atPc 0xFFF).pc.toNat := by decide
theorem witness_UnrecognizedWordIsSkipped :
    State.reset.halt = false ∧ State.reset.fetch = some 0x0000 ∧ decodeWord 0x0000 = .error .family0 := by decide +kernel

/-- A STEP that sets DT, one that sets ST, and one that sets neither. -/
theorem witness_TimersTickEveryStep :
    outputs (withV [3]) 0xF015 = some ⟨.ok, false, none⟩ ∧ outputs (withV [1]) 0xF018 = some ⟨.ok, true, none⟩ ∧
    outputs { State.reset with dt := 1, st := 2 } 0x6000 = some ⟨.ok, false, none⟩ ∧
    Runs (about 0xF015) (.ldDtVx 0) ∧ Runs (about 0xF018) (.ldStVx 0) :=
  ⟨by decide +kernel, by decide +kernel, by decide +kernel, runs_placeWord rfl (by decide) (by decide),
    runs_placeWord rfl (by decide) (by decide)⟩

/-- The invariant at the last fetchable PC, and each class of PC write. -/
theorem witness_PcAfterEveryInstruction :
    (atPc 0xFFE).Inv ∧ (atPc 0xFFE).halt = false ∧ (atPc 0xFFE).pc.toNat ≤ 0xFFE ∧
    (∃ t, exec (.ldImm 0 0) (atPc 0xFFE) = .next t ∧ t.halt = false) ∧ (∃ t, exec (.seImm 0 0) (atPc 0xFFE) = .next t ∧ t.halt = false) ∧
    (∃ t, exec (.call 0) (atPc 0xFFE) = .next t ∧ t.halt = false) ∧ (∃ t, exec (.jpV0 0xFFF) (atPc 0xFFE) = .next t ∧ t.halt = false) ∧
    (∃ t, exec .ret { atPc 0xFFE with sp := 16 } = .next t ∧ t.halt = false) ∧ (∃ t, exec (.skp 0) (atPc 0xFFE) = .next t ∧ t.halt = false) ∧
    (∃ t, exec (.ldVxK 0) (atPc 0xFFE) = .next t ∧ t.halt = false) ∧ State.Inv { atPc 0xFFE with sp := 16 } :=
  ⟨by decide +kernel, rfl, by decide, ⟨_, rfl, rfl⟩, ⟨_, rfl, by decide +kernel⟩, ⟨_, rfl, rfl⟩, ⟨_, rfl, rfl⟩, ⟨_, rfl, rfl⟩,
    ⟨_, rfl, by decide +kernel⟩, ⟨_, rfl, by decide +kernel⟩, by decide +kernel⟩

theorem witness_StepAlwaysReturns : State.reset.sp.toNat ≤ 16 ∧ ({ State.reset with sp := 16 } : State).sp.toNat ≤ 16 := by decide
theorem witness_SkipOnRegisterComparison :
    decodeWord (wordXYN 0x5000 0 0 1) = .error .family5 ∧ decodeWord (wordXYN 0x9000 15 15 15) = .error .family9 := by decide

/-- SP = 0 and 15 push, 16 overflows, 17 stops. -/
theorem witness_CallPushesItsOwnAddress :
    State.reset.sp.toNat < 16 ∧ ({ State.reset with sp := 15 } : State).sp.toNat < 16 ∧
    ({ State.reset with sp := 16 } : State).sp.toNat = 16 ∧ 16 < ({ State.reset with sp := 17 } : State).sp.toNat := by decide

/-- SP = 1 and 16 pop, 0 underflows, 17 stops. -/
theorem witness_ReturnResumesAfterCall :
    1 ≤ ({ State.reset with sp := 1 } : State).sp.toNat ∧ ({ State.reset with sp := 16 } : State).sp.toNat ≤ 16 ∧
    State.reset.sp.toNat = 0 ∧ 16 < ({ State.reset with sp := 17 } : State).sp.toNat := by decide

/-- A call from the last free slot, then a jump in between. -/
theorem witness_CallReturnRoundTrip :
    ∃ t u, exec (.call 0x300) { State.reset with sp := 15 } = .next t ∧ exec (.jp 0x400) t = .next u ∧ u.sp = t.sp ∧ u.stack = t.stack :=
  ⟨_, _, rfl, rfl, rfl, rfl⟩

theorem witness_DecimalDigitsAreStored :
    ({ State.reset with i := 0xFFD } : State).i.toNat + 2 ≤ 0xFFF ∧ 0xFFF < ({ State.reset with i := 0xFFE } : State).i.toNat + 2 := by
  decide

/-- Blocks of 1 and of 16 bytes up to the last byte of memory, and one beyond. -/
theorem witness_BlockStore :
    ({ State.reset with i := 0xFFF } : State).i.toNat + (0 : Reg).val ≤ 0xFFF ∧
    ({ State.reset with i := 0xFF0 } : State).i.toNat + (15 : Reg).val ≤ 0xFFF ∧
    0xFFF < ({ State.reset with i := 0xFF1 } : State).i.toNat + (15 : Reg).val := by decide
theorem witness_BlockLoad :
    ({ State.reset with i := 0xFFF } : State).i.toNat + (0 : Reg).val ≤ 0xFFF ∧
    0xFFF < ({ State.reset with i := 0xFFF } : State).i.toNat + (1 : Reg).val := by decide

/-- M20: the store at 0x200 over the bytes at 0x202, which the next fetch reads. -/
theorem witness_StoredBytesAreFetchedNext :
    ∃ t, exec (.stRegs 1) { State.reset with i := 0x202 } = .next t ∧ (0x202 : Word).toNat + (1 : Reg).val ≤ 0xFFF ∧
      (1 : Reg).val = (0 : Reg).val + 1 ∧ (1 : Reg) ≤ 1 ∧ t.pc.toNat = (0x202 : Word).toNat + (0 : Reg).val :=
  ⟨_, rfl, by decide, rfl, by decide, by decide +kernel⟩

/-- No rows at I = FFFF, 15 rows up to the last byte, one byte beyond. -/
theorem witness_DrawXorsSprite :
    (0xFF1 : Word).toNat + 15 - 1 ≤ 0xFFF ∧ 0xFFF < (0xFF2 : Word).toNat + 15 - 1 ∧
    SpriteCovers { State.reset with i := 0x300, mem := [(0x300, 0xC0)] } 0 0 1 1 ∧
    ¬ SpriteCovers { State.reset with i := 0x300, mem := [(0x300, 0xC0)] } 0 0 0 1 ∧
    (Display.blank.flip 1).cell 1 = true :=
  ⟨by decide, by decide, ⟨0, by decide, 1, by decide, by decide +kernel, by decide⟩,
    fun ⟨_, hr, _⟩ => absurd hr (Nat.not_lt_zero _), by decide +kernel⟩

/-- P4: the coordinates are no VF, so they survive the first draw. -/
theorem witness_DrawingTwiceRestores :
    ∃ t, exec (.drw 0 1 2) { withV [3, 2] with i := 0x20C, mem := [(0x20C, 0xC0), (0x20D, 0x81)] } = .next t ∧
      (0x20C : Word).toNat + 2 - 1 ≤ 0xFFF ∧ t.getV 0 = 3 ∧ t.getV 1 = 2 ∧ (withV [3, 2]).getV 0 = 3 ∧ (withV [3, 2]).getV 1 = 2 :=
  ⟨_, rfl, by decide, by decide +kernel, by decide +kernel, by decide +kernel, by decide +kernel⟩

theorem witness_SkipOnKey :
    ({ withV [15] with key := State.reset.key.set 15 true } : State).key[((withV [15]).getV 0).toNat]? = some true ∧
    (withV [15]).key[((withV [15]).getV 0).toNat]? = some false ∧ 15 < ((withV [16]).getV 0).toNat := by decide +kernel
theorem witness_ReadDelayTimer : Runs (about 0xF107) (.ldVxDt 1) := runs_placeWord rfl (by decide) (by decide)
theorem witness_WaitForKey :
    (∀ k : Key, State.reset.key[k.val] = false) ∧ (State.reset.key.set 15 true)[(15 : Key).val] = true ∧
    (∀ j : Key, (State.reset.key.set 15 true)[j.val] = true → j = 15) ∧
    ((State.reset.key.set 15 true).set 3 true)[(3 : Key).val] = true := by decide +kernel
theorem witness_SetDelayTimer : Runs (about 0xF015) (.ldDtVx 0) := runs_placeWord rfl (by decide) (by decide)
theorem witness_SetSoundTimer : Runs (about 0xF018) (.ldStVx 0) := runs_placeWord rfl (by decide) (by decide)

/-- Each of the five causes has a state that raises it. -/
theorem witness_FaultConditionsAndCauses :
    faultDue (.call 0) { State.reset with sp := 16 } = some .stackOverflow ∧ faultDue .ret State.reset = some .stackUnderflow ∧
    faultDue (.ldB 0) { State.reset with i := 0xFFE } = some .dataOob ∧ faultDue (.skp 0) (withV [16]) = some .keyIndex ∧
    faultDue (.drw 0 0 0) { State.reset with i := 0xFFFF } = none ∧
    (∃ t, exec .ret State.reset = .next t ∧ t.halt = true) ∧ ∃ t, exec .cls State.reset = .next t ∧ t.halt = false :=
  ⟨by decide, by decide, by decide, by decide +kernel, by decide, ⟨_, rfl, by decide⟩, ⟨_, rfl, rfl⟩⟩

theorem witness_FaultingStepIsPrecise :
    ∃ t o, cycle (atPc 0xFFF) = .next (t, o) ∧ (atPc 0xFFF).halt = false ∧ t.halt = true := ⟨_, _, rfl, rfl, by decide +kernel⟩
theorem witness_FlagIsWrittenByFourInstructions :
    ∃ t, exec (.addReg 0 1) (withV [0xFF, 1]) = .next t ∧ t.halt = false ∧ t.getV 15 = 1 := ⟨_, rfl, rfl, by decide +kernel⟩

/-- Every piece of state some instruction does change. -/
theorem witness_WritersOfEachPiece :
    (∃ t, exec (.ldImm 0 1) State.reset = .next t ∧ t.getV 0 ≠ State.reset.getV 0) ∧
    (∃ t, exec (.ldI 1) State.reset = .next t ∧ t.i ≠ State.reset.i) ∧
    (∃ t, exec (.call 0) State.reset = .next t ∧ t.sp ≠ State.reset.sp ∧ t.stack ≠ State.reset.stack) ∧
    (∃ t, exec (.ldB 0) { withV [9] with i := 0x300 } = .next t ∧ t.mem.read 0x302 ≠ (withV [9]).mem.read 0x302) ∧
    (∃ t, exec .cls State.reset = .next t ∧ t.dirty ≠ State.reset.dirty) ∧
    (∃ t, exec (.ldDtVx 0) (withV [9]) = .next t ∧ t.dt ≠ (withV [9]).dt) ∧
    (∃ t, exec (.ldStVx 0) (withV [9]) = .next t ∧ t.st ≠ (withV [9]).st) ∧
    (∃ t, exec (.jp 0x200) State.reset = .next t ∧ t.pc = State.reset.pc ∧ t.halt = false) ∧
    (∃ t, exec .ret State.reset = .next t ∧ t.halt ≠ State.reset.halt ∧ t.cause ≠ State.reset.cause) :=
  ⟨⟨_, rfl, by decide +kernel⟩, ⟨_, rfl, by decide⟩, ⟨_, rfl, by decide, by decide +kernel⟩, ⟨_, rfl, by decide +kernel⟩,
    ⟨_, rfl, by decide⟩, ⟨_, rfl, by decide +kernel⟩, ⟨_, rfl, by decide +kernel⟩, ⟨_, rfl, by decide, rfl⟩, ⟨_, rfl, by decide, by decide⟩⟩

theorem witness_HostSideStateIsNotRead :
    KeepsBut [.dirty, .st, .halt, .cause, .draws] [] State.reset
      { State.reset with dirty := true, st := 7, halt := true, cause := .keyIndex, draws := 3 } ∧
    (∀ x kk, Instr.cls ≠ .rnd x kk) :=
  ⟨⟨fun _ _ => rfl, fun _ => rfl, fun _ => rfl, fun _ => rfl, fun _ => rfl, fun _ _ => rfl, fun _ => rfl,
    fun h => absurd (by decide) h, fun _ => rfl, fun h => absurd (by decide) h, fun _ => rfl, fun h => absurd (by decide) h,
    fun h => absurd (by decide) h, fun h => absurd (by decide) h⟩, nofun⟩

theorem witness_StepKeepsInvariant : ∃ t, State.reset.Inv ∧ step State.reset = .next t := ⟨_, by decide, rfl⟩
theorem witness_TransactionsKeepInvariant :
    ∃ t r, State.reset.Inv ∧ transact (.load [0x60, 0x14]) State.reset = .next (t, r) := ⟨_, _, by decide, rfl⟩
theorem witness_ReachableStatesNeverStop : Reachable { State.reset with draws := 0 } := .powerOn 0
theorem witness_ReachableStatesNeverStop_after_setKey : ∃ t r, transact (.setKey 7 true) { State.reset with draws := 0 } = .next (t, r) ∧
    Reachable t := ⟨_, _, rfl, .transaction (a := .setKey 7 true) (.powerOn 0) rfl⟩
theorem witness_LoadCopiesExactlyTheImage :
    (List.replicate 3584 (0x60 : Byte)).length ≤ 3584 ∧ 3584 < (List.replicate 3585 (0x60 : Byte)).length ∧
    (List.replicate 3584 (0x60 : Byte))[3583]? = some 0x60 := by
  simp only [List.length_replicate, List.getElem?_replicate]; decide
theorem witness_SetKeyWritesOneFlag : State.reset.key[(15 : Key).val] = false ∧ (14 : Key) ≠ 15 := by decide
theorem witness_SettledStateIsFixed : (about 0x1200).Settled :=
  ⟨by decide +kernel, by decide +kernel, 0x200, by decide +kernel, runs_placeWord rfl (by decide) (by decide)⟩

end Sys2Proof.Tests
end

section
/-! The proofs about fetch and memory (spec/20_memory.md). -/

namespace Sys2Proof.Proofs
open Sys2Proof.Machine

/-- Settles O7: below PC 0x0FFF the fetch answers the word of the two bytes at PC (`State.fetch_some`), and that word
has the first of them in its high half (`wordOfBytes_toNat`). -/
theorem fetchIsBigEndian : Obligations.FetchIsBigEndian := by
  intro s hpc
  exact ⟨_, State.fetch_some hpc, wordOfBytes_toNat _ _⟩

end Sys2Proof.Proofs
end

section
/-! The proofs about the step cycle (spec/40_step_cycle.md): the timer update of a STEP that reports OK (R65) and the
classes of PC writes (R64). -/

namespace Sys2Proof.Proofs
open Sys2Proof.Machine

/-! ## The instruction a STEP runs -/

/-- An instruction that answers a next state that is not halted has completed. -/
theorem completed_of_exec {i : Instr} {s t : State} (h : exec i s = .next t) (ht : t.halt = false) :
    faultDue i s = none ∧ Completed i s t := by
  rcases exec_next_cases h with ⟨c, -, rfl⟩ | h
  · exact absurd ht (by simp)
  · exact h

/-- A STEP runs at most one instruction. -/
theorem runs_unique {s : State} {i j : Instr} (hi : Runs s i) (hj : Runs s j) : i = j := by
  obtain ⟨-, w, hf, hd⟩ := hi
  obtain ⟨-, w', hf', hd'⟩ := hj
  cases hf.symm.trans hf'
  cases hd.symm.trans hd'
  rfl

/-- A STEP at an unrecognized word runs no instruction. -/
theorem not_runs_of_unrecognized {s : State} {w : Word} {e : Reject} (hf : s.fetch = some w)
    (hd : decodeWord w = .error e) (i : Instr) : ¬ Runs s i := by
  rintro ⟨-, w', hf', hd'⟩
  cases hf.symm.trans hf'
  exact nomatch hd.symm.trans hd'

/-- A STEP that started unhalted and reports OK ends with the timer update, after an unrecognized word's advance or after
an instruction that completed. -/
theorem cycle_ok_cases {s t : State} {o : StepOutput} (hs : s.halt = false) (h : cycle s = .next (t, o))
    (ho : o.status = .ok) :
    ∃ u d, (t, o) = u.finish d ∧
      ((u = s.advance 2 ∧ ∀ i, ¬ Runs s i) ∨ ∃ i, Runs s i ∧ Completed i s u) := by
  rcases cycle_next_cases h with ⟨hh, -⟩ | ⟨-, -, -, rfl⟩ | ⟨w, e, -, hf, hd, hto⟩ |
    ⟨w, i, u, -, hf, hd, hx, hu, hto⟩ | ⟨-, -, -, -, -, -, -, rfl⟩
  · exact absurd hh (by simp [hs])
  · exact nomatch ho
  · exact ⟨_, _, hto, .inl ⟨rfl, not_runs_of_unrecognized hf hd⟩⟩
  · exact ⟨u, _, hto, .inr ⟨i, ⟨hs, w, hf, hd⟩, (completed_of_exec hx hu).2⟩⟩
  · exact nomatch ho

/-! ## The timers -/

/-- DT after an instruction's own writes, before the timer update: only Fx15 writes it. -/
def dtWritten (i : Instr) (s : State) : Byte :=
  match i with
  | .ldDtVx x => s.getV x
  | _ => s.dt

/-- ST after an instruction's own writes, before the timer update: only Fx18 writes it. -/
def stWritten (i : Instr) (s : State) : Byte :=
  match i with
  | .ldStVx x => s.getV x
  | _ => s.st

theorem dtWritten_of_ne {i : Instr} (s : State) (h : ∀ x, i ≠ .ldDtVx x) : dtWritten i s = s.dt := by
  unfold dtWritten
  split
  · exact absurd rfl (h _)
  · rfl

theorem stWritten_of_ne {i : Instr} (s : State) (h : ∀ x, i ≠ .ldStVx x) : stWritten i s = s.st := by
  unfold stWritten
  split
  · exact absurd rfl (h _)
  · rfl

theorem skipIf_timers (s : State) (c : Bool) : (s.skipIf c).dt = s.dt ∧ (s.skipIf c).st = s.st := by
  rw [State.skipIf_eq]
  exact ⟨rfl, rfl⟩

/-- A completed instruction leaves the timers at its own writes. -/
theorem timers_of_completed {i : Instr} {s t : State} (h : Completed i s t) :
    t.dt = dtWritten i s ∧ t.st = stWritten i s := by
  cases i with
  | ret | call nnn =>
    obtain ⟨-, rfl⟩ := h
    exact ⟨rfl, rfl⟩
  | seImm x kk | sneImm x kk | seReg x y | sneReg x y =>
    obtain rfl := h
    exact skipIf_timers s _
  | skp x | sknp x =>
    obtain ⟨k, -, rfl⟩ := h
    exact skipIf_timers s _
  | ldVxK x => obtain ⟨-, rfl⟩ | ⟨k, -, -, rfl⟩ := h <;> exact ⟨rfl, rfl⟩
  | _ =>
    obtain rfl := h
    exact ⟨rfl, rfl⟩

/-- Settles O12: the STEP ends with the timer update of a state `u` (`cycle_ok_cases`), whose timers are the
instruction's own writes (`timers_of_completed`) or, at an unrecognized word, those before the STEP. -/
theorem timersTickEveryStep : Obligations.TimersTickEveryStep := by
  intro s t o hs h ho
  obtain ⟨u, d, hto, hu⟩ := cycle_ok_cases hs h ho
  cases hto
  refine ⟨u.dt, u.st, countDown_toNat _, countDown_toNat _, beq_iff_eq, ?_⟩
  rcases hu with ⟨rfl, hnone⟩ | ⟨i, hi, hc⟩
  · exact ⟨fun x hx => absurd hx (hnone _), fun _ => rfl, fun x hx => absurd hx (hnone _), fun _ => rfl⟩
  · obtain ⟨hdt, hst⟩ := timers_of_completed hc
    rw [hdt, hst]
    exact ⟨fun x hx => runs_unique hi hx ▸ rfl, fun hn => dtWritten_of_ne s fun x e => hn x (e ▸ hi),
      fun x hx => runs_unique hi hx ▸ rfl, fun hn => stWritten_of_ne s fun x e => hn x (e ▸ hi)⟩

/-! ## PC as a natural number -/

/-- A step of at most 4 from a fetchable PC does not wrap. -/
theorem toNat_add_of_fetchable {a : Word} {k : Nat} (ha : a.toNat ≤ 0xFFE) (hk : k ≤ 4) :
    (a + BitVec.ofNat 16 k).toNat = a.toNat + k := by
  simp only [BitVec.toNat_add, BitVec.toNat_ofNat]
  omega

/-- A target address is the same number as a word. -/
theorem addrWord_toNat (nnn : Addr) : (addrWord nnn).toNat = nnn.toNat := by
  rw [addrWord, BitVec.toNat_setWidth]
  omega

/-- The default advance after writes that leave PC alone. -/
theorem pc_of_advance {s t u : State} (hpc : s.pc.toNat ≤ 0xFFE) (ht : t = u.advance 2) (hu : u.pc = s.pc) :
    t.pc.toNat = s.pc.toNat + 2 := by
  rw [ht, State.advance_pc, hu, toNat_add_of_fetchable hpc (by decide)]

/-- The conditional skip, on a condition `p` that the model tests as `c`. -/
theorem pc_of_skipIf {s t : State} {c : Bool} {p : Prop} [Decidable p] (hpc : s.pc.toNat ≤ 0xFFE)
    (hc : c = true ↔ p) (ht : t = s.skipIf c) : t.pc.toNat = s.pc.toNat + (if p then 4 else 2) := by
  have hk : (if c = true then 4 else 2) ≤ 4 := by split <;> decide
  rw [ht, State.skipIf_eq, State.advance_pc, toNat_add_of_fetchable hpc hk, if_congr hc rfl rfl]

/-- The computed jump's sum does not wrap. -/
theorem jpV0_target_toNat (nnn : Addr) (b : Byte) :
    (addrWord nnn + byteWord b + 2).toNat = nnn.toNat + b.toNat + 2 := by
  have hn := nnn.isLt
  have hb := b.isLt
  simp only [BitVec.toNat_add, addrWord_toNat, byteWord, BitVec.toNat_setWidth, BitVec.ofNat_eq_ofNat,
    BitVec.toNat_ofNat]
  omega

/-- The key that Vx names is tested by the value of Vx as a position among the flags. -/
theorem getElem?_key_of_val {s : State} {x : Reg} {k : Key} (hk : k.val = (s.getV x).toNat) :
    s.key[(s.getV x).toNat]? = some (s.keyDown k) := by
  rw [← hk, Vector.getElem?_eq_getElem k.isLt]
  rfl

/-- From a state of the invariant, a return that takes no fault lands 2 above the address on top of the stack. -/
theorem pc_of_ret {s t : State} (hinv : s.Inv) (hf : faultDue .ret s = none) (hc : Completed .ret s t) :
    ∃ a, s.stack[s.sp.toNat - 1]? = some a ∧ t.pc.toNat = a.toNat + 2 := by
  obtain ⟨hlt, rfl⟩ := hc
  obtain ⟨-, -, hstack, -⟩ := hinv
  have hsp : s.sp.toNat ≠ 0 := fun h0 => nomatch hf.symm.trans (if_pos h0)
  refine ⟨_, Vector.getElem?_eq_getElem hlt, ?_⟩
  exact toNat_add_of_fetchable (hstack ⟨_, hlt⟩ (by simp only; omega)) (by decide)

/-- Fx0A advances PC when a key is pressed and leaves it when none is. -/
theorem pc_of_ldVxK {s t : State} {x : Reg} (hpc : s.pc.toNat ≤ 0xFFE) (hc : Completed (.ldVxK x) s t) :
    t.pc.toNat = s.pc.toNat + (if ∃ k : Key, s.key[k.val] = true then 2 else 0) := by
  obtain ⟨hnil, rfl⟩ | ⟨k, hk, -, ht⟩ := hc
  · rw [if_neg]
    · rfl
    · rintro ⟨k, hk⟩
      have hmem := (State.mem_pressed _ k).mpr hk
      rw [hnil] at hmem
      exact List.not_mem_nil hmem
  · rw [if_pos ⟨k, (State.mem_pressed s k).mp hk⟩]
    exact pc_of_advance hpc ht rfl

/-- An unrecognized word advances PC by 2. -/
theorem pc_of_unrecognized {s t : State} {o : StepOutput} {w : Word} {e : Reject} (hs : s.halt = false)
    (hf : s.fetch = some w) (hd : decodeWord w = .error e) (h : cycle s = .next (t, o)) :
    t.pc.toNat = s.pc.toNat + 2 := by
  have hpc : ¬ 0x0FFF ≤ s.pc.toNat := fun hle => nomatch hf.symm.trans (State.fetch_eq_none.mpr hle)
  rw [cycle_of_unrecognized hs hf hd] at h
  cases h
  exact toNat_add_of_fetchable (by omega) (by decide)

/-- Settles O13: an instruction that does not fault has completed (`completed_of_exec`), and its next state's PC is that of
its class: a target, a skip (`pc_of_skipIf`), a return, a wait, or the default advance (`pc_of_advance`). -/
theorem pcAfterEveryInstruction : Obligations.PcAfterEveryInstruction := by
  refine ⟨fun i s t hinv _ hpc hx ht => ?_, fun s t o w e hs hf hd h => pc_of_unrecognized hs hf hd h⟩
  obtain ⟨hfault, hc⟩ := completed_of_exec hx ht
  cases i with
  | jp nnn =>
    obtain rfl := hc
    exact addrWord_toNat nnn
  | call nnn =>
    obtain ⟨-, rfl⟩ := hc
    exact addrWord_toNat nnn
  | ret => exact pc_of_ret hinv hfault hc
  | jpV0 nnn =>
    obtain rfl := hc
    exact jpV0_target_toNat nnn _
  | seImm x kk | seReg x y => exact pc_of_skipIf hpc beq_iff_eq hc
  | sneImm x kk | sneReg x y => exact pc_of_skipIf hpc bne_iff_ne hc
  | skp x | sknp x =>
    obtain ⟨k, hk, hc⟩ := hc
    exact pc_of_skipIf hpc (by simp [getElem?_key_of_val hk]) hc
  | ldVxK x => exact pc_of_ldVxK hpc hc
  | _ => exact pc_of_advance hpc hc rfl

end Sys2Proof.Proofs
end

section
/-! The proofs about control flow (spec/41_control_flow.md): the jumps, and the skips on a comparison. -/

namespace Sys2Proof.Proofs
open Sys2Proof.Machine

/-! ## The printed encodings as formats: the base of each word is its family selector in the top nibble (R46) -/

theorem wordNNN_eq_formatNNN {base : Word} {op : BitVec 4} (h : base = op.setWidth 16 <<< 12) (nnn : Addr) :
    wordNNN base nnn = formatNNN op nnn := by
  rw [h, wordNNN, formatNNN]

theorem wordXKK_eq_formatXKK {base : Word} {op : BitVec 4} (h : base = op.setWidth 16 <<< 12) (x : Reg) (kk : Byte) :
    wordXKK base x kk = formatXKK op x kk := by
  rw [h, wordXKK, formatXKK]

theorem wordXYN_eq_formatXYN {base : Word} {op : BitVec 4} (h : base = op.setWidth 16 <<< 12) (x y : Reg) {n : Nat}
    (hn : n < 16) : wordXYN base x y n = formatXYN op x y (BitVec.ofNat 4 n) := by
  rw [h, wordXYN, formatXYN, BitVec.setWidth_ofNat_of_le_of_lt (by decide) hn]

/-! ## Decoding the words of the family (R50, R53) -/

theorem decodeWord_jp (nnn : Addr) : decodeWord (wordNNN 0x1000 nnn) = .ok (.jp nnn) := by
  rw [wordNNN_eq_formatNNN (base := 0x1000) (op := 0x1) rfl]
  simp [decodeWord]

theorem decodeWord_jpV0 (nnn : Addr) : decodeWord (wordNNN 0xB000 nnn) = .ok (.jpV0 nnn) := by
  rw [wordNNN_eq_formatNNN (base := 0xB000) (op := 0xB) rfl]
  simp [decodeWord]

theorem decodeWord_seImm (x : Reg) (kk : Byte) : decodeWord (wordXKK 0x3000 x kk) = .ok (.seImm x kk) := by
  rw [wordXKK_eq_formatXKK (base := 0x3000) (op := 0x3) rfl]
  simp [decodeWord]

theorem decodeWord_sneImm (x : Reg) (kk : Byte) : decodeWord (wordXKK 0x4000 x kk) = .ok (.sneImm x kk) := by
  rw [wordXKK_eq_formatXKK (base := 0x4000) (op := 0x4) rfl]
  simp [decodeWord]

theorem nibble_eq_zero_iff {n : Nat} (hn : n < 16) : BitVec.ofNat 4 n = 0#4 ↔ n = 0 := by
  rw [← BitVec.toNat_inj, BitVec.toNat_ofNat, Nat.mod_eq_of_lt hn]
  rfl

/-- Family 5 recognizes the low nibble 0 only (R48, R76). -/
theorem decodeWord_family5 (x y : Reg) {n : Nat} (hn : n < 16) :
    decodeWord (wordXYN 0x5000 x y n) = if n = 0 then .ok (.seReg x y) else .error .family5 := by
  rw [wordXYN_eq_formatXYN (base := 0x5000) (op := 0x5) rfl x y hn]
  simp [decodeWord, nibble_eq_zero_iff hn]

/-- Family 9 recognizes the low nibble 0 only (R48, R77). -/
theorem decodeWord_family9 (x y : Reg) {n : Nat} (hn : n < 16) :
    decodeWord (wordXYN 0x9000 x y n) = if n = 0 then .ok (.sneReg x y) else .error .family9 := by
  rw [wordXYN_eq_formatXYN (base := 0x9000) (op := 0x9) rfl x y hn]
  simp [decodeWord, nibble_eq_zero_iff hn]

/-! ## Writes of PC alone -/

/-- A write of PC leaves everything else. -/
theorem keepsBut_setPc (s : State) (a : Word) : KeepsBut [.pc] [] s (s.setPc a) := by
  simp [KeepsBut]

/-- An instruction that answers the conditional skip on a test `c` of the condition `p` completes as R64 says. -/
theorem skips_of_exec {i : Instr} {s : State} {c : Bool} {p : Prop} [Decidable p]
    (hx : exec i s = .next (s.skipIf c)) (hc : c = true ↔ p) :
    ∃ t, exec i s = .next t ∧ t.pc = s.pc + (if p then 4 else 2) ∧ KeepsBut [.pc] [] s t := by
  have hskip : s.skipIf c = s.setPc (s.pc + if p then 4 else 2) := by
    by_cases hp : p
    · rw [hc.mpr hp, if_pos hp]; rfl
    · rw [Bool.eq_false_iff.mpr (mt hc.mp hp), if_neg hp]; rfl
  exact ⟨_, hx.trans (congrArg _ hskip), rfl, keepsBut_setPc s _⟩

/-! ## The statements -/

/-- Settles O15: the jump writes `addrWord nnn`, the same number as `nnn`, to PC alone, and a fetch fails from 0x0FFF up
(`State.fetch_eq_none`), of which a 12-bit target reaches only 0xFFF. -/
theorem jumpSetsPcToTarget : Obligations.JumpSetsPcToTarget := by
  intro nnn s
  have hfetch : (s.setPc (addrWord nnn)).fetch = none ↔ nnn = 0xFFF := by
    rw [State.fetch_eq_none, State.setPc_pc, addrWord_toNat]
    bv_omega
  exact ⟨decodeWord_jp nnn, _, rfl, addrWord_toNat nnn, hfetch, keepsBut_setPc s _⟩

/-- Settles O16: both are the conditional skip (`skips_of_exec`), on `==` and on `!=`. -/
theorem skipOnImmediateComparison : Obligations.SkipOnImmediateComparison := by
  intro x kk s
  exact ⟨decodeWord_seImm x kk, decodeWord_sneImm x kk, skips_of_exec rfl beq_iff_eq, skips_of_exec rfl bne_iff_ne⟩

/-- Settles O17: families 5 and 9 recognize the low nibble 0 only, and both instructions are the conditional skip
(`skips_of_exec`), on `==` and on `!=`. -/
theorem skipOnRegisterComparison : Obligations.SkipOnRegisterComparison := by
  intro x y s
  have hbad : ∀ n, 1 ≤ n → n ≤ 15 →
      decodeWord (wordXYN 0x5000 x y n) = .error .family5 ∧ decodeWord (wordXYN 0x9000 x y n) = .error .family9 := by
    intro n h1 h15
    have hn : n ≠ 0 := by omega
    rw [decodeWord_family5 x y (by omega), decodeWord_family9 x y (by omega), if_neg hn, if_neg hn]
    exact ⟨rfl, rfl⟩
  exact ⟨decodeWord_family5 x y (by decide), decodeWord_family9 x y (by decide), hbad,
    skips_of_exec rfl beq_iff_eq, skips_of_exec rfl bne_iff_ne⟩

/-- Settles O18: the computed jump writes a sum to PC alone, and the sum does not wrap (`jpV0_target_toNat`). -/
theorem computedJumpAddsTwo : Obligations.ComputedJumpAddsTwo := by
  intro nnn s
  exact ⟨decodeWord_jpV0 nnn, _, rfl, jpV0_target_toNat nnn _, keepsBut_setPc s _⟩

end Sys2Proof.Proofs
end

section
/-! The proofs about the register and ALU instructions that set no flag (spec/42_alu.md): loads, the wrapping addition,
bitwise logic, shifts. -/

namespace Sys2Proof.Proofs
open Sys2Proof.Machine

/-! ## Decoding the words of the family (R50) -/

theorem decodeWord_ldImm (x : Reg) (kk : Byte) : decodeWord (wordXKK 0x6000 x kk) = .ok (.ldImm x kk) := by
  rw [wordXKK_eq_formatXKK (base := 0x6000) (op := 0x6) rfl]
  simp [decodeWord]

theorem decodeWord_addImm (x : Reg) (kk : Byte) : decodeWord (wordXKK 0x7000 x kk) = .ok (.addImm x kk) := by
  rw [wordXKK_eq_formatXKK (base := 0x7000) (op := 0x7) rfl]
  simp [decodeWord]

/-- A base that holds the family selector and a sub-opcode in the low nibble is format XY (R46). -/
theorem wordXYN_eq_formatXYN_sub {base : Word} {op n : BitVec 4} (h : base = op.setWidth 16 <<< 12 ||| n.setWidth 16)
    (x y : Reg) : wordXYN base x y 0 = formatXYN op x y n := by
  rw [h, wordXYN, formatXYN, BitVec.or_zero]
  ac_rfl

/-- A base in family 8 leads to the second decode level, on its low nibble (R48). -/
theorem decodeWord_family8 {base : Word} {n : BitVec 4} (h : base = (0x8#4).setWidth 16 <<< 12 ||| n.setWidth 16)
    (x y : Reg) : decodeWord (wordXYN base x y 0) = decodeFamily8 (formatXYN 0x8 x y n) := by
  rw [wordXYN_eq_formatXYN_sub h]
  simp [decodeWord]

theorem decodeWord_ldReg (x y : Reg) : decodeWord (wordXYN 0x8000 x y 0) = .ok (.ldReg x y) := by
  rw [decodeWord_family8 (base := 0x8000) (n := 0x0) rfl]
  simp [decodeFamily8]

theorem decodeWord_orReg (x y : Reg) : decodeWord (wordXYN 0x8001 x y 0) = .ok (.orReg x y) := by
  rw [decodeWord_family8 (base := 0x8001) (n := 0x1) rfl]
  simp [decodeFamily8]

theorem decodeWord_andReg (x y : Reg) : decodeWord (wordXYN 0x8002 x y 0) = .ok (.andReg x y) := by
  rw [decodeWord_family8 (base := 0x8002) (n := 0x2) rfl]
  simp [decodeFamily8]

theorem decodeWord_xorReg (x y : Reg) : decodeWord (wordXYN 0x8003 x y 0) = .ok (.xorReg x y) := by
  rw [decodeWord_family8 (base := 0x8003) (n := 0x3) rfl]
  simp [decodeFamily8]

theorem decodeWord_shr (x y : Reg) : decodeWord (wordXYN 0x8006 x y 0) = .ok (.shr x y) := by
  rw [decodeWord_family8 (base := 0x8006) (n := 0x6) rfl]
  simp [decodeFamily8]

theorem decodeWord_shl (x y : Reg) : decodeWord (wordXYN 0x800E x y 0) = .ok (.shl x y) := by
  rw [decodeWord_family8 (base := 0x800E) (n := 0xE) rfl]
  simp [decodeFamily8]

/-! ## Writes of one register and PC -/

/-- A register write and an advance leave every other register and every other piece of state. -/
theorem keepsBut_setV_advance (s : State) (x : Reg) (b : Byte) (k : Nat) :
    KeepsBut [.pc] [x] s ((s.setV x b).advance k) := by
  have hregs : ∀ r, r ∉ [x] → ((s.setV x b).advance k).getV r = s.getV r := by
    intro r hr
    rw [State.getV_advance, State.getV_setV, if_neg (Ne.symm (List.ne_of_not_mem_cons hr))]
  simpa [KeepsBut] using hregs

/-- An instruction that answers `s.result x b` completes with `b` in V[x], PC advanced by 2 and nothing else changed, VF
only as the destination (R64). -/
theorem writesReg_of_exec {i : Instr} {s : State} {x : Reg} {b : Byte} (hx : exec i s = s.result x b) :
    ∃ t, exec i s = .next t ∧ t.getV x = b ∧ t.pc = s.pc + 2 ∧ KeepsBut [.pc] [x] s t :=
  ⟨_, hx, by rw [State.getV_advance, State.getV_setV, if_pos rfl], rfl, keepsBut_setV_advance s x b 2⟩

/-! ## The statements -/

/-- Settles O22: the load writes `kk` to its destination (`writesReg_of_exec`). -/
theorem loadImmediate : Obligations.LoadImmediate := by
  intro x kk s
  exact ⟨decodeWord_ldImm x kk, writesReg_of_exec rfl⟩

/-- Settles O23: the addition of bytes is that of numbers modulo 256. -/
theorem addImmediateWrapsWithoutFlag : Obligations.AddImmediateWrapsWithoutFlag := by
  intro x kk s
  obtain ⟨t, hx, hv, hpc, hkeep⟩ := writesReg_of_exec (i := .addImm x kk) (s := s) rfl
  exact ⟨decodeWord_addImm x kk, t, hx, by rw [hv, BitVec.toNat_add], hpc, hkeep⟩

/-- Settles O24: the move writes the value read from V[y] to its destination (`writesReg_of_exec`). -/
theorem moveRegister : Obligations.MoveRegister := by
  intro x y s
  exact ⟨decodeWord_ldReg x y, writesReg_of_exec rfl⟩

/-- Settles O25: each of the three writes one byte operation of V[x] and V[y] (`writesReg_of_exec`), which acts bit by
bit. -/
theorem logicIsBitwiseWithoutFlag : Obligations.LogicIsBitwiseWithoutFlag := by
  intro x y s
  refine ⟨decodeWord_orReg x y, decodeWord_andReg x y, decodeWord_xorReg x y, ?or, ?and, ?xor⟩
  case or =>
    obtain ⟨t, hx, hv, hpc, hkeep⟩ := writesReg_of_exec (i := .orReg x y) (s := s) rfl
    exact ⟨t, hx, hpc, hkeep, fun b => by rw [hv, BitVec.getLsbD_or]⟩
  case and =>
    obtain ⟨t, hx, hv, hpc, hkeep⟩ := writesReg_of_exec (i := .andReg x y) (s := s) rfl
    exact ⟨t, hx, hpc, hkeep, fun b => by rw [hv, BitVec.getLsbD_and]⟩
  case xor =>
    obtain ⟨t, hx, hv, hpc, hkeep⟩ := writesReg_of_exec (i := .xorReg x y) (s := s) rfl
    exact ⟨t, hx, hpc, hkeep, fun b => by rw [hv, BitVec.getLsbD_xor]⟩

/-- Settles O29: a shift by one halves the number or doubles it modulo 256, and neither meaning names `y`. -/
theorem shiftsIgnoreYAndFlag : Obligations.ShiftsIgnoreYAndFlag := by
  intro x y s
  refine ⟨decodeWord_shr x y, decodeWord_shl x y, ?shr, ?shl, fun z => ⟨rfl, rfl⟩⟩
  case shr =>
    obtain ⟨t, hx, hv, hpc, hkeep⟩ := writesReg_of_exec (i := .shr x y) (s := s) rfl
    exact ⟨t, hx, by rw [hv, BitVec.toNat_ushiftRight, Nat.shiftRight_one], hpc, hkeep⟩
  case shl =>
    obtain ⟨t, hx, hv, hpc, hkeep⟩ := writesReg_of_exec (i := .shl x y) (s := s) rfl
    exact ⟨t, hx, by rw [hv, BitVec.toNat_shiftLeft, Nat.shiftLeft_eq, Nat.pow_one], hpc, hkeep⟩

end Sys2Proof.Proofs
end

section
/-! The proofs about the index register (spec/43_index_memory.md): the load of I. -/

namespace Sys2Proof.Proofs
open Sys2Proof.Machine

/-! ## Decoding the words of the family (R50) -/

theorem decodeWord_ldI (nnn : Addr) : decodeWord (wordNNN 0xA000 nnn) = .ok (.ldI nnn) := by
  rw [wordNNN_eq_formatNNN (base := 0xA000) (op := 0xA) rfl]
  simp [decodeWord]

/-! ## Writes of I and PC -/

/-- A write of I and an advance leave every register and every other piece of state. -/
theorem keepsBut_setI_advance (s : State) (a : Word) (k : Nat) : KeepsBut [.pc, .i] [] s ((s.setI a).advance k) := by
  simp [KeepsBut]

/-- An instruction whose answer is a write of I and the default advance completes with the written word in I, PC advanced
by 2 and nothing else changed (R64). -/
theorem writesIndex_of_exec {i : Instr} {s : State} {a : Word} (hx : exec i s = .next ((s.setI a).advance 2)) :
    ∃ t, exec i s = .next t ∧ t.i = a ∧ t.pc = s.pc + 2 ∧ KeepsBut [.pc, .i] [] s t :=
  ⟨_, hx, rfl, rfl, keepsBut_setI_advance s a 2⟩

/-! ## The statements -/

/-- Settles O31: the load writes `addrWord nnn`, the same number as `nnn`, to I (`writesIndex_of_exec`). -/
theorem loadIndex : Obligations.LoadIndex := by
  intro nnn s
  obtain ⟨t, hx, hi, hpc, hkeep⟩ := writesIndex_of_exec (i := .ldI nnn) (s := s) rfl
  exact ⟨decodeWord_ldI nnn, t, hx, by rw [hi, addrWord_toNat], hpc, hkeep⟩

end Sys2Proof.Proofs
end

section
/-! The proofs about the display (spec/44_display.md): the clear. -/

namespace Sys2Proof.Proofs
open Sys2Proof.Machine

/-- 00E0 is recognized as a whole word, not as a format with operands (R50). -/
theorem decodeWord_cls : decodeWord 0x00E0 = .ok .cls := by decide

/-- A replaced display and an advance leave every register and every other piece of state but DIRTY (R19). -/
theorem keepsBut_redraw_advance (s : State) (d : Display) (k : Nat) :
    KeepsBut [.pc, .fb, .dirty] [] s ((s.redraw d).advance k) := by
  simp [KeepsBut]

/-- Settles O38: the clear puts the blank display in place of FB (`State.redraw`), each cell of which is off
(`Display.cell_blank`). -/
theorem clearBlanksAndMarksDirty : Obligations.ClearBlanksAndMarksDirty := by
  intro s
  have hcells : ∀ k, k < 2048 → ((s.redraw Display.blank).advance 2).fb.cell k = false := fun k _ =>
    Display.cell_blank k
  exact ⟨decodeWord_cls, _, rfl, hcells, rfl, rfl, keepsBut_redraw_advance s Display.blank 2⟩

end Sys2Proof.Proofs
end

section
/-! The proofs about the delay timer (spec/45_keys_timers.md): its read, its write, and the timer update of the STEP that
runs them (R65). -/

namespace Sys2Proof.Proofs
open Sys2Proof.Machine

/-! ## Decoding the words of the family (R50) -/

/-- A base that holds the family selector and a sub-opcode in the low byte is format X (R46). -/
theorem wordX_eq_formatXKK {base : Word} {op : BitVec 4} {kk : Byte}
    (h : base = op.setWidth 16 <<< 12 ||| kk.setWidth 16) (x : Reg) : wordX base x = formatXKK op x kk := by
  rw [h, wordX, formatXKK]
  ac_rfl

/-- A base in family F leads to the second decode level, on its low byte (R48). -/
theorem decodeWord_familyF {base : Word} {kk : Byte} (h : base = (0xF#4).setWidth 16 <<< 12 ||| kk.setWidth 16)
    (x : Reg) : decodeWord (wordX base x) = decodeFamilyF (formatXKK 0xF x kk) := by
  rw [wordX_eq_formatXKK h]
  simp [decodeWord]

theorem decodeWord_ldVxDt (x : Reg) : decodeWord (wordX 0xF007 x) = .ok (.ldVxDt x) := by
  rw [decodeWord_familyF (base := 0xF007) (kk := 0x07) rfl]
  simp [decodeFamilyF]

theorem decodeWord_ldDtVx (x : Reg) : decodeWord (wordX 0xF015 x) = .ok (.ldDtVx x) := by
  rw [decodeWord_familyF (base := 0xF015) (kk := 0x15) rfl]
  simp [decodeFamilyF]

/-! ## A STEP that runs an instruction -/

/-- A STEP that runs an instruction which raises no fault ends with the timer update of what the instruction answered
(R60, R65). -/
theorem cycle_of_runs {i : Instr} {s u : State} (hr : Runs s i) (hx : exec i s = .next u) (hu : u.halt = s.halt) :
    cycle s = .next (u.finish none) := by
  obtain ⟨hs, w, hf, hd⟩ := hr
  rw [cycle_of_instr hs hf hd, hx, closeStep_next (hu.trans hs)]

/-- The state part of `cycle_of_runs`. -/
theorem step_of_runs {i : Instr} {s u : State} (hr : Runs s i) (hx : exec i s = .next u) (hu : u.halt = s.halt) :
    step s = .next u.tick :=
  step_eq_next.mpr ⟨_, cycle_of_runs hr hx hu⟩

/-! ## Writes of DT and PC -/

/-- A write of DT and an advance leave every register and every other piece of state. -/
theorem keepsBut_setDt_advance (s : State) (b : Byte) (k : Nat) :
    KeepsBut [.pc, .dt] [] s ((s.setDt b).advance k) := by
  simp [KeepsBut]

/-! ## The statements -/

/-- Settles O42: the read puts DT into its destination (`writesReg_of_exec`) and leaves DT to the timer update, which
counts it down and touches no register (`step_of_runs`). -/
theorem readDelayTimer : Obligations.ReadDelayTimer := by
  intro x s
  have hx : exec (.ldVxDt x) s = s.result x s.dt := rfl
  have hread : ((s.setV x s.dt).advance 2).tick.getV x = s.dt := by
    rw [State.getV_tick, State.getV_advance, State.getV_setV, if_pos rfl]
  exact ⟨decodeWord_ldVxDt x, writesReg_of_exec hx,
    fun hr => ⟨_, step_of_runs hr hx rfl, hread, countDown_toNat s.dt⟩⟩

/-- Settles O44: the write puts V[x] into DT alone, and the timer update counts the new value down (`step_of_runs`). -/
theorem setDelayTimer : Obligations.SetDelayTimer := by
  intro x s
  have hx : exec (.ldDtVx x) s = .next ((s.setDt (s.getV x)).advance 2) := rfl
  exact ⟨decodeWord_ldDtVx x, ⟨_, hx, rfl, rfl, keepsBut_setDt_advance s _ 2⟩,
    fun hr => ⟨_, step_of_runs hr hx rfl, countDown_toNat (s.getV x)⟩⟩

end Sys2Proof.Proofs
end

section
/-! The proofs about the host's SETKEY (spec/60_exceptions.md): the one key flag it writes, and that instructions write
none. -/

namespace Sys2Proof.Proofs
open Sys2Proof.Machine

/-! ## What SETKEY writes and leaves (R146) -/

theorem hostSetKey_key_same (s : State) (k : Key) (p : Bool) : (hostSetKey s k p).key[k.val] = p :=
  Vector.getElem_set_self k.isLt

theorem hostSetKey_key_of_ne (s : State) {j k : Key} (p : Bool) (h : j ≠ k) :
    (hostSetKey s k p).key[j.val] = s.key[j.val] :=
  Vector.getElem_set_ne k.isLt j.isLt (Fin.val_ne_of_ne h.symm)

/-- SETKEY leaves every register and every piece of state but the keys. -/
theorem keepsBut_hostSetKey (s : State) (k : Key) (p : Bool) : KeepsBut [.key] [] s (hostSetKey s k p) := by
  simp [KeepsBut, hostSetKey, State.getV]

/-- SETKEY to the value a key has already leaves the whole state. -/
theorem hostSetKey_of_key_eq {s : State} {k : Key} {p : Bool} (h : s.key[k.val] = p) : hostSetKey s k p = s := by
  rw [hostSetKey, ← h, Vector.set_getElem_self]

/-! ## Instructions write no key (R22) -/

/-- The conditional skip leaves the keys. -/
theorem skipIf_key (s : State) (c : Bool) : (s.skipIf c).key = s.key := by
  rw [State.skipIf_eq, State.advance_key]

/-- A completed instruction leaves the keys. -/
theorem key_of_completed {i : Instr} {s t : State} (h : Completed i s t) : t.key = s.key := by
  cases i with
  | ret | call nnn =>
    obtain ⟨-, rfl⟩ := h
    rfl
  | seImm x kk | sneImm x kk | seReg x y | sneReg x y =>
    obtain rfl := h
    exact skipIf_key s _
  | skp x | sknp x =>
    obtain ⟨k, -, rfl⟩ := h
    exact skipIf_key s _
  | ldVxK x => obtain ⟨-, rfl⟩ | ⟨k, -, -, rfl⟩ := h <;> rfl
  | _ =>
    obtain rfl := h
    rfl

/-- An instruction leaves the keys, whether it completes or takes a fatal fault. -/
theorem key_of_exec {i : Instr} {s t : State} (h : exec i s = .next t) : t.key = s.key := by
  rcases exec_next_cases h with ⟨c, -, rfl⟩ | ⟨-, hc⟩
  · exact State.raise_key s c
  · exact key_of_completed hc

/-! ## The statement -/

/-- Settles O57: SETKEY is one write into the vector of key flags, and every instruction that answers a next state leaves
that vector (`key_of_exec`). -/
theorem setKeyWritesOneFlag : Obligations.SetKeyWritesOneFlag := by
  intro s k p
  exact ⟨⟨_, rfl, hostSetKey_key_same s k p, fun _ hj => hostSetKey_key_of_ne s p hj, keepsBut_hostSetKey s k p,
    hostSetKey_of_key_eq⟩, fun _ _ hx => key_of_exec hx⟩

end Sys2Proof.Proofs
end

section
/-! The proofs about LOAD (spec/70_reset_and_hazards.md): the image it copies, what it leaves, and the image it refuses. -/

namespace Sys2Proof.Proofs
open Sys2Proof.Machine

/-! ## Memory under a block write -/

/-- A read after a block write, at the place of a byte of the block (R32). -/
theorem read_writeBytes_of_getElem? (m : Memory) (a : Nat) {bs : List Byte} {k : Nat} {b : Byte} (h : bs[k]? = some b) :
    (m.writeBytes a bs).read (a + k) = b := by
  have hk : k < bs.length := (List.getElem?_eq_some_iff.mp h).1
  rw [Memory.read_writeBytes, if_pos (by omega), Nat.add_sub_cancel_left, List.getD_eq_getElem?_getD, h, Option.getD_some]

/-- A replaced memory leaves every register and every other piece of state. -/
theorem keepsBut_setMem (s : State) (m : Memory) : KeepsBut [.mem] [] s (s.setMem m) := by
  simp [KeepsBut]

/-! ## What LOAD answers -/

/-- An image that fits is accepted and written as one block from 0x200 on (R163). -/
theorem transact_load_of_le (s : State) {image : List Byte} (h : image.length ≤ Config.maxProg) :
    transact (.load image) s = .next (s.setMem (s.mem.writeBytes Config.progBase image), .loaded true) := by
  have hload : hostLoad s image = some (s.setMem (s.mem.writeBytes Config.progBase image)) := if_pos (decide_eq_true h)
  rw [transact, loadOutcome, hload]

/-- An image that does not fit is refused and leaves the whole state (R139, R163). -/
theorem transact_load_of_lt (s : State) {image : List Byte} (h : Config.maxProg < image.length) :
    transact (.load image) s = .next (s, .loaded false) := by
  have hload : hostLoad s image = none := if_neg (by rw [imageWellFormed, decide_eq_true_iff]; exact Nat.not_le.mpr h)
  rw [transact, loadOutcome, hload]

/-! ## The statement -/

/-- Settles O56: an accepted LOAD is one block write to memory (`transact_load_of_le`), which puts each byte of the image
in its place (`read_writeBytes_of_getElem?`) and leaves the bytes outside it (`Memory.read_writeBytes_outside`). -/
theorem loadCopiesExactlyTheImage : Obligations.LoadCopiesExactlyTheImage := by
  intro s image
  refine ⟨fun h => ⟨_, transact_load_of_le s h, ?inside, ?outside, keepsBut_setMem s _⟩, transact_load_of_lt s⟩
  case inside => exact fun k b hb => read_writeBytes_of_getElem? s.mem Config.progBase hb
  case outside => exact fun a ha => Memory.read_writeBytes_outside s.mem Config.progBase image a ha

end Sys2Proof.Proofs
end

section
/-! The proofs about the decoder (spec/30_encoding.md): that it inverts the encoder in both directions, that it follows
the match and mask columns of the opcode map, and which words it refuses. -/

namespace Sys2Proof.Proofs

/-! ## Decoding an encoding -/

/-- The row count of a well-formed Dxyn survives its four bits (R47, R49). -/
theorem rowCount_toNat {n : Nat} (hn : n < 16) : (BitVec.ofNat 4 n).toNat = n := by
  rw [BitVec.toNat_ofNat, Nat.mod_eq_of_lt hn]

/-- Settles O1: the family selector leads to the instruction's own family, the sub-opcode, where there is one, to its row,
and the fields of a format are read back as they were put in (`opField_formatXYN` and the like). -/
theorem decodeInvertsEncode : Obligations.DecodeInvertsEncode := by
  intro i hi
  cases i with
  | cls | ret => decide
  | jp nnn | call nnn | ldI nnn | jpV0 nnn => simp [encode, decodeWord]
  | seImm x kk | sneImm x kk | ldImm x kk | addImm x kk | rnd x kk => simp [encode, decodeWord]
  | seReg x y | sneReg x y => simp [encode, decodeWord]
  | ldReg x y | orReg x y | andReg x y | xorReg x y | addReg x y | subReg x y | shr x y | subnReg x y | shl x y =>
    simp [encode, decodeWord, decodeFamily8]
  | drw x y n => simp [encode, decodeWord, rowCount_toNat (of_decide_eq_true hi)]
  | skp x | sknp x => simp [encode, decodeWord, decodeFamilyE]
  | ldVxDt x | ldVxK x | ldDtVx x | ldStVx x | addI x | ldF x | ldB x | stRegs x | ldRegs x =>
    simp [encode, decodeWord, decodeFamilyF]

/-! ## A recognized word from its fields -/

section
variable {w : Word} {op : BitVec 4} (hop : opField w = op)
include hop

theorem formatNNN_of_fields : formatNNN op (nnnField w) = w := by
  rw [← hop, formatNNN_fields]

theorem formatXKK_of_op : formatXKK op (xField w) (kkField w) = w := by
  rw [← hop, formatXKK_fields]

theorem formatX_of_fields {kk : Byte} (hkk : kkField w = kk) : formatXKK op (xField w) kk = w := by
  rw [← hkk, formatXKK_of_op hop]

theorem formatXYN_of_op : formatXYN op (xField w) (yField w) (nField w) = w := by
  rw [← hop, formatXYN_fields]

theorem formatXY_of_fields {n : BitVec 4} (hn : nField w = n) : formatXYN op (xField w) (yField w) n = w := by
  rw [← hn, formatXYN_of_op hop]

end

/-- Dxyn holds its row count as a number: the low nibble's. -/
theorem encode_drw_of_op {w : Word} (hop : opField w = 0xD) :
    encode (.drw (xField w) (yField w) (nField w).toNat) = w := by
  rw [encode, BitVec.ofNat_toNat, BitVec.setWidth_eq]
  exact formatXYN_of_op hop

/-! ## The second decode level inverts the encoder (R48) -/

theorem encode_of_decodeFamily0 {w : Word} {i : Instr} (hop : opField w = 0x0) (h : decodeFamily0 w = .ok i) :
    i.wellFormed = true ∧ encode i = w := by
  have hw := formatNNN_of_fields hop
  unfold decodeFamily0 at h
  split at h
  · cases h; exact ⟨rfl, by rw [← hw, ‹nnnField w = _›]; rfl⟩
  · cases h; exact ⟨rfl, by rw [← hw, ‹nnnField w = _›]; rfl⟩
  · exact nomatch h

theorem encode_of_decodeFamily8 {w : Word} {i : Instr} (hop : opField w = 0x8) (h : decodeFamily8 w = .ok i) :
    i.wellFormed = true ∧ encode i = w := by
  unfold decodeFamily8 at h
  split at h <;> cases h <;> exact ⟨rfl, formatXY_of_fields hop ‹_›⟩

theorem encode_of_decodeFamilyE {w : Word} {i : Instr} (hop : opField w = 0xE) (h : decodeFamilyE w = .ok i) :
    i.wellFormed = true ∧ encode i = w := by
  unfold decodeFamilyE at h
  split at h <;> cases h <;> exact ⟨rfl, formatX_of_fields hop ‹_›⟩

theorem encode_of_decodeFamilyF {w : Word} {i : Instr} (hop : opField w = 0xF) (h : decodeFamilyF w = .ok i) :
    i.wellFormed = true ∧ encode i = w := by
  unfold decodeFamilyF at h
  split at h <;> cases h <;> exact ⟨rfl, formatX_of_fields hop ‹_›⟩

/-! ## The first decode level (R48, R51) -/

/-- The sixteen families. -/
theorem nibble_cases (n : BitVec 4) :
    n = 0x0 ∨ n = 0x1 ∨ n = 0x2 ∨ n = 0x3 ∨ n = 0x4 ∨ n = 0x5 ∨ n = 0x6 ∨ n = 0x7 ∨ n = 0x8 ∨ n = 0x9 ∨ n = 0xA ∨
      n = 0xB ∨ n = 0xC ∨ n = 0xD ∨ n = 0xE ∨ n = 0xF := by
  revert n; decide

/-- Families 5 and 9 recognize the low nibble 0 only. -/
theorem decodeXY0_eq_ok {n : BitVec 4} {i j : Instr} {f : Reject}
    (h : (if n = 0x0#4 then .ok i else .error f) = Except.ok j) : n = 0x0 ∧ i = j := by
  by_cases hn : n = 0x0#4
  · exact ⟨hn, Except.ok.inj ((if_pos hn).symm.trans h)⟩
  · exact nomatch (if_neg hn).symm.trans h

/-- Settles O2: a family either builds the instruction from the fields of the word, whose format is the word again, or
leads to the second level (`encode_of_decodeFamily8` and its like). The cases are the families 0 to F in order. -/
theorem encodeInvertsDecode : Obligations.EncodeInvertsDecode := by
  intro w i h
  rcases nibble_cases (opField w) with hop | hop | hop | hop | hop | hop | hop | hop | hop | hop | hop | hop | hop | hop |
    hop | hop <;> rw [decodeWord, hop] at h
  · exact encode_of_decodeFamily0 hop h
  · cases h; exact ⟨rfl, formatNNN_of_fields hop⟩
  · cases h; exact ⟨rfl, formatNNN_of_fields hop⟩
  · cases h; exact ⟨rfl, formatXKK_of_op hop⟩
  · cases h; exact ⟨rfl, formatXKK_of_op hop⟩
  · obtain ⟨hn, rfl⟩ := decodeXY0_eq_ok h
    exact ⟨rfl, formatXY_of_fields hop hn⟩
  · cases h; exact ⟨rfl, formatXKK_of_op hop⟩
  · cases h; exact ⟨rfl, formatXKK_of_op hop⟩
  · exact encode_of_decodeFamily8 hop h
  · obtain ⟨hn, rfl⟩ := decodeXY0_eq_ok h
    exact ⟨rfl, formatXY_of_fields hop hn⟩
  · cases h; exact ⟨rfl, formatNNN_of_fields hop⟩
  · cases h; exact ⟨rfl, formatNNN_of_fields hop⟩
  · cases h; exact ⟨rfl, formatXKK_of_op hop⟩
  · cases h; exact ⟨decide_eq_true (nField w).isLt, encode_drw_of_op hop⟩
  · exact encode_of_decodeFamilyE hop h
  · exact encode_of_decodeFamilyF hop h

/-! ## The opcode map's match and mask columns (R50) -/

/-- The row of every instruction is in the map. -/
theorem opcodeRow_mem_opcodeMap (i : Instr) : opcodeRow i ∈ opcodeMap := by
  cases i <;> (simp only [opcodeRow]; decide)

open Laws.EncodedInRow in
/-- The encoding of every instruction lies in its row. -/
theorem encode_in_row : ∀ i : Instr, Laws.EncodedInRow.Statement i
  | .cls => cls | .ret => ret | .jp nnn => jp nnn | .call nnn => call nnn | .seImm x kk => seImm x kk
  | .sneImm x kk => sneImm x kk | .seReg x y => seReg x y | .sneReg x y => sneReg x y
  | .ldImm x kk => ldImm x kk | .addImm x kk => addImm x kk | .ldReg x y => ldReg x y | .orReg x y => orReg x y
  | .andReg x y => andReg x y | .xorReg x y => xorReg x y | .addReg x y => addReg x y
  | .subReg x y => subReg x y | .shr x y => shr x y | .subnReg x y => subnReg x y | .shl x y => shl x y
  | .ldI nnn => ldI nnn | .jpV0 nnn => jpV0 nnn | .rnd x kk => rnd x kk | .drw x y n => drw x y n
  | .skp x => skp x | .sknp x => sknp x | .ldVxDt x => ldVxDt x | .ldVxK x => ldVxK x | .ldDtVx x => ldDtVx x
  | .ldStVx x => ldStVx x | .addI x => addI x | .ldF x => ldF x | .ldB x => ldB x | .stRegs x => stRegs x
  | .ldRegs x => ldRegs x

/-- A recognized word matches the row of its instruction. -/
theorem matches_of_decodeWord {w : Word} {i : Instr} (h : decodeWord w = .ok i) :
    w &&& (opcodeRow i).mask = (opcodeRow i).pattern := by
  obtain ⟨-, rfl⟩ := encodeInvertsDecode w i h
  exact encode_in_row i

/-! A field of a word that matches a row, where the row's mask keeps that field. -/

section
variable {w m p : Word} (h : w &&& m = p)
include h

theorem extractLsb'_of_matches {k n : Nat} (hm : m.extractLsb' k n = BitVec.allOnes n) :
    w.extractLsb' k n = p.extractLsb' k n := by
  rw [← h, BitVec.extractLsb'_and, hm, BitVec.and_allOnes]

theorem opField_of_matches {op : BitVec 4} (hm : opField m = 0xF) (hp : opField p = op) : opField w = op :=
  (extractLsb'_of_matches h hm).trans hp

theorem nField_of_matches {n : BitVec 4} (hm : nField m = 0xF) (hp : nField p = n) : nField w = n :=
  (extractLsb'_of_matches h hm).trans hp

theorem kkField_of_matches {kk : Byte} (hm : kkField m = 0xFF) (hp : kkField p = kk) : kkField w = kk :=
  (extractLsb'_of_matches h hm).trans hp

/-- A row whose mask keeps the family selector and the low nibble: format XY. -/
theorem formatXY_of_matches {op n : BitVec 4} (hm : m = 0xF00F) (hop : opField p = op) (hn : nField p = n) :
    formatXYN op (xField w) (yField w) n = w := by
  subst hm
  exact formatXY_of_fields (opField_of_matches h rfl hop) (nField_of_matches h rfl hn)

/-- A row whose mask keeps the family selector and the low byte: format X. -/
theorem formatX_of_matches {op : BitVec 4} {kk : Byte} (hm : m = 0xF0FF) (hop : opField p = op) (hkk : kkField p = kk) :
    formatXKK op (xField w) kk = w := by
  subst hm
  exact formatX_of_fields (opField_of_matches h rfl hop) (kkField_of_matches h rfl hkk)

/-- A row whose mask keeps every bit. -/
theorem eq_of_matches (hm : m = 0xFFFF) : p = w := by
  rw [← h, hm]
  exact BitVec.and_allOnes

end

/-- A word that matches a row is the encoding of a well-formed instruction of that row: the fields that the mask leaves
free are its operands. -/
theorem encoding_of_matches {w : Word} (j : Instr) (h : w &&& (opcodeRow j).mask = (opcodeRow j).pattern) :
    ∃ i, i.wellFormed = true ∧ encode i = w ∧ opcodeRow i = opcodeRow j := by
  cases j <;> rw [opcodeRow] at h
  case cls => exact ⟨.cls, rfl, eq_of_matches h rfl, rfl⟩
  case ret => exact ⟨.ret, rfl, eq_of_matches h rfl, rfl⟩
  case jp => exact ⟨.jp (nnnField w), rfl, formatNNN_of_fields (opField_of_matches h rfl rfl), rfl⟩
  case call => exact ⟨.call (nnnField w), rfl, formatNNN_of_fields (opField_of_matches h rfl rfl), rfl⟩
  case seImm => exact ⟨.seImm (xField w) (kkField w), rfl, formatXKK_of_op (opField_of_matches h rfl rfl), rfl⟩
  case sneImm => exact ⟨.sneImm (xField w) (kkField w), rfl, formatXKK_of_op (opField_of_matches h rfl rfl), rfl⟩
  case seReg => exact ⟨.seReg (xField w) (yField w), rfl, formatXY_of_matches h rfl rfl rfl, rfl⟩
  case sneReg => exact ⟨.sneReg (xField w) (yField w), rfl, formatXY_of_matches h rfl rfl rfl, rfl⟩
  case ldImm => exact ⟨.ldImm (xField w) (kkField w), rfl, formatXKK_of_op (opField_of_matches h rfl rfl), rfl⟩
  case addImm => exact ⟨.addImm (xField w) (kkField w), rfl, formatXKK_of_op (opField_of_matches h rfl rfl), rfl⟩
  case ldReg => exact ⟨.ldReg (xField w) (yField w), rfl, formatXY_of_matches h rfl rfl rfl, rfl⟩
  case orReg => exact ⟨.orReg (xField w) (yField w), rfl, formatXY_of_matches h rfl rfl rfl, rfl⟩
  case andReg => exact ⟨.andReg (xField w) (yField w), rfl, formatXY_of_matches h rfl rfl rfl, rfl⟩
  case xorReg => exact ⟨.xorReg (xField w) (yField w), rfl, formatXY_of_matches h rfl rfl rfl, rfl⟩
  case addReg => exact ⟨.addReg (xField w) (yField w), rfl, formatXY_of_matches h rfl rfl rfl, rfl⟩
  case subReg => exact ⟨.subReg (xField w) (yField w), rfl, formatXY_of_matches h rfl rfl rfl, rfl⟩
  case shr => exact ⟨.shr (xField w) (yField w), rfl, formatXY_of_matches h rfl rfl rfl, rfl⟩
  case subnReg => exact ⟨.subnReg (xField w) (yField w), rfl, formatXY_of_matches h rfl rfl rfl, rfl⟩
  case shl => exact ⟨.shl (xField w) (yField w), rfl, formatXY_of_matches h rfl rfl rfl, rfl⟩
  case ldI => exact ⟨.ldI (nnnField w), rfl, formatNNN_of_fields (opField_of_matches h rfl rfl), rfl⟩
  case jpV0 => exact ⟨.jpV0 (nnnField w), rfl, formatNNN_of_fields (opField_of_matches h rfl rfl), rfl⟩
  case rnd => exact ⟨.rnd (xField w) (kkField w), rfl, formatXKK_of_op (opField_of_matches h rfl rfl), rfl⟩
  case drw => exact ⟨.drw (xField w) (yField w) (nField w).toNat, decide_eq_true (nField w).isLt,
      encode_drw_of_op (opField_of_matches h rfl rfl), rfl⟩
  case skp => exact ⟨.skp (xField w), rfl, formatX_of_matches h rfl rfl rfl, rfl⟩
  case sknp => exact ⟨.sknp (xField w), rfl, formatX_of_matches h rfl rfl rfl, rfl⟩
  case ldVxDt => exact ⟨.ldVxDt (xField w), rfl, formatX_of_matches h rfl rfl rfl, rfl⟩
  case ldVxK => exact ⟨.ldVxK (xField w), rfl, formatX_of_matches h rfl rfl rfl, rfl⟩
  case ldDtVx => exact ⟨.ldDtVx (xField w), rfl, formatX_of_matches h rfl rfl rfl, rfl⟩
  case ldStVx => exact ⟨.ldStVx (xField w), rfl, formatX_of_matches h rfl rfl rfl, rfl⟩
  case addI => exact ⟨.addI (xField w), rfl, formatX_of_matches h rfl rfl rfl, rfl⟩
  case ldF => exact ⟨.ldF (xField w), rfl, formatX_of_matches h rfl rfl rfl, rfl⟩
  case ldB => exact ⟨.ldB (xField w), rfl, formatX_of_matches h rfl rfl rfl, rfl⟩
  case stRegs => exact ⟨.stRegs (xField w), rfl, formatX_of_matches h rfl rfl rfl, rfl⟩
  case ldRegs => exact ⟨.ldRegs (xField w), rfl, formatX_of_matches h rfl rfl rfl, rfl⟩

/-- Rows are matched by what they decode to. -/
theorem matches_iff_decodeWord {w : Word} {r : OpcodeRow} (hr : r ∈ opcodeMap) :
    w &&& r.mask = r.pattern ↔ ∃ i, decodeWord w = .ok i ∧ opcodeRow i = r := by
  obtain ⟨j, -, rfl⟩ := List.mem_map.mp hr
  constructor
  · intro h
    obtain ⟨i, hi, rfl, hrow⟩ := encoding_of_matches j h
    exact ⟨i, decodeInvertsEncode i hi, hrow⟩
  · rintro ⟨i, hi, hrow⟩
    rw [← hrow]
    exact matches_of_decodeWord hi

/-- Settles O3: a word in a row is the encoding of an instruction of that row (`encoding_of_matches`), which decoding gives
back, and a recognized word is in the row of its instruction (`matches_of_decodeWord`). -/
theorem decodeFollowsMatchAndMask : Obligations.DecodeFollowsMatchAndMask := by
  intro w
  refine ⟨fun r hr => matches_iff_decodeWord hr, ?refused, ?unmatched⟩
  case refused =>
    rintro ⟨e, he⟩ r hr h
    obtain ⟨i, hi, -⟩ := (matches_iff_decodeWord hr).mp h
    exact nomatch he.symm.trans hi
  case unmatched =>
    intro h
    cases hd : decodeWord w with
    | error e => exact ⟨e, rfl⟩
    | ok i => exact absurd (matches_of_decodeWord hd) (h _ (opcodeRow_mem_opcodeMap i))

/-- Settles O4: a word in two rows decodes to an instruction of each (`matches_iff_decodeWord`), but to one only. -/
theorem noWordMatchesTwoRows : Obligations.NoWordMatchesTwoRows := by
  refine ⟨rfl, by decide, fun w r q hr hq hwr hwq => ?_⟩
  obtain ⟨i, hi, rfl⟩ := (matches_iff_decodeWord hr).mp hwr
  obtain ⟨j, hj, rfl⟩ := (matches_iff_decodeWord hq).mp hwq
  cases hi.symm.trans hj
  rfl

/-! ## The refused words (R53) -/

/-- A refusal under the name `f`, in an arm where the condition `p` on the word holds. -/
theorem error_iff_of {e f : Reject} {p : Prop} (hp : p) :
    (Except.error f : Except Reject Instr) = .error e ↔ e = f ∧ p :=
  ⟨fun h => ⟨(Except.error.inj h).symm, hp⟩, fun h => congrArg _ h.1.symm⟩

/-- No refusal, in an arm where the condition `p` on the word fails. -/
theorem ok_iff_of {e f : Reject} {i : Instr} {p : Prop} (hp : ¬ p) : Except.ok i = .error e ↔ e = f ∧ p :=
  iff_of_false nofun fun h => hp h.2

theorem decodeFamily0_eq_error {w : Word} {e : Reject} :
    decodeFamily0 w = .error e ↔ e = .family0 ∧ (nnnField w).toNat ≠ 0x0E0 ∧ (nnnField w).toNat ≠ 0x0EE := by
  unfold decodeFamily0
  split
  case h_3 => exact error_iff_of (by simp_all [← BitVec.toNat_inj])
  all_goals exact ok_iff_of (by simp [*])

theorem decodeFamily8_eq_error {w : Word} {e : Reject} :
    decodeFamily8 w = .error e ↔
      e = .family8 ∧ (nField w).toNat ∉ [0x0, 0x1, 0x2, 0x3, 0x4, 0x5, 0x6, 0x7, 0xE] := by
  unfold decodeFamily8
  split
  case h_10 => exact error_iff_of (by simp_all [← BitVec.toNat_inj])
  all_goals exact ok_iff_of (by simp [*])

theorem decodeFamilyE_eq_error {w : Word} {e : Reject} :
    decodeFamilyE w = .error e ↔ e = .familyE ∧ (kkField w).toNat ∉ [0x9E, 0xA1] := by
  unfold decodeFamilyE
  split
  case h_3 => exact error_iff_of (by simp_all [← BitVec.toNat_inj])
  all_goals exact ok_iff_of (by simp [*])

theorem decodeFamilyF_eq_error {w : Word} {e : Reject} :
    decodeFamilyF w = .error e ↔
      e = .familyF ∧ (kkField w).toNat ∉ [0x07, 0x0A, 0x15, 0x18, 0x1E, 0x29, 0x33, 0x55, 0x65] := by
  unfold decodeFamilyF
  split
  case h_10 => exact error_iff_of (by simp_all [← BitVec.toNat_inj])
  all_goals exact ok_iff_of (by simp [*])

/-- Families 5 and 9 refuse every low nibble but 0. -/
theorem decodeXY0_eq_error {n : BitVec 4} {i : Instr} {e f : Reject} :
    (if n = 0x0#4 then .ok i else .error f) = Except.error e ↔ e = f ∧ n.toNat ≠ 0 := by
  by_cases hn : n = 0x0#4
  · rw [if_pos hn]
    exact ok_iff_of (by simp [hn])
  · rw [if_neg hn]
    exact error_iff_of fun h => hn (BitVec.eq_of_toNat_eq h)

/-- The sub-opcodes of family 8 and its refused low nibbles are all sixteen nibbles. -/
theorem family8_refused_iff {n : Nat} (h : n < 16) :
    n ∉ [0x0, 0x1, 0x2, 0x3, 0x4, 0x5, 0x6, 0x7, 0xE] ↔ n ∈ [0x8, 0x9, 0xA, 0xB, 0xC, 0xD, 0xF] := by
  revert n; decide

/-- In family 0 the low twelve bits are the word. -/
theorem nnnField_toNat_of_family0 {w : Word} (h : opField w = 0x0) : (nnnField w).toNat = w.toNat := by
  have hop : w.toNat / 4096 = 0 := (opField_toNat w).symm.trans (congrArg BitVec.toNat h)
  rw [nnnField_toNat]
  omega

/-- Settles O5: a word's family is its top nibble; six families refuse words, each those of its own row
(`decodeFamily8_eq_error` and its like), and the other ten none. The cases are the families 0 to F in order. -/
theorem unrecognizedWordsByFamily : Obligations.UnrecognizedWordsByFamily := by
  intro w e
  rw [← opField_toNat, ← nField_toNat, ← kkField_toNat, ← family8_refused_iff (nField w).isLt]
  rcases nibble_cases (opField w) with hop | hop | hop | hop | hop | hop | hop | hop | hop | hop | hop | hop | hop | hop |
    hop | hop <;> rw [decodeWord, hop]
  · rw [← nnnField_toNat_of_family0 hop]
    simpa using decodeFamily0_eq_error
  · simp
  · simp
  · simp
  · simp
  · simpa using decodeXY0_eq_error
  · simp
  · simp
  · simpa using decodeFamily8_eq_error
  · simpa using decodeXY0_eq_error
  · simp
  · simp
  · simp
  · simp
  · simpa using decodeFamilyE_eq_error
  · simpa using decodeFamilyF_eq_error

/-- Settles O6: the decoder evaluates to the instruction of each of the seven words. -/
theorem exampleWordsDecode : Obligations.ExampleWordsDecode := by
  unfold Obligations.ExampleWordsDecode
  decide

end Sys2Proof.Proofs
end

section
/-! The frame of every instruction (spec/10_state.md R27): the frame of each operation, composed along the operations of
the instruction, so that a piece no operation names is kept. -/

namespace Sys2Proof.Machine

/-! ## Composing frames -/

/-- One operation after another writes at most what the two write. -/
theorem KeepsBut.trans {p q : List Piece} {l m : List Reg} {s t u : State} (h : KeepsBut p l s t)
    (h' : KeepsBut q m t u) : KeepsBut (p ++ q) (l ++ m) s u := by
  obtain ⟨hv, hi, hpc, hsp, hstack, hmem, hfb, hdirty, hdt, hst, hkey, hhalt, hcause, hdraws⟩ := h
  obtain ⟨hv', hi', hpc', hsp', hstack', hmem', hfb', hdirty', hdt', hst', hkey', hhalt', hcause', hdraws'⟩ := h'
  simp only [KeepsBut, List.mem_append, not_or]
  exact ⟨fun r n => (hv' r n.2).trans (hv r n.1), fun n => (hi' n.2).trans (hi n.1), fun n => (hpc' n.2).trans (hpc n.1),
    fun n => (hsp' n.2).trans (hsp n.1), fun n => (hstack' n.2).trans (hstack n.1),
    fun n a => (hmem' n.2 a).trans (hmem n.1 a), fun n => (hfb' n.2).trans (hfb n.1),
    fun n => (hdirty' n.2).trans (hdirty n.1), fun n => (hdt' n.2).trans (hdt n.1), fun n => (hst' n.2).trans (hst n.1),
    fun n => (hkey' n.2).trans (hkey n.1), fun n => (hhalt' n.2).trans (hhalt n.1),
    fun n => (hcause' n.2).trans (hcause n.1), fun n => (hdraws' n.2).trans (hdraws n.1)⟩

/-- A frame may name more than is written. -/
theorem KeepsBut.mono {p q : List Piece} {l m : List Reg} {s t : State} (h : KeepsBut p l s t) (hp : p ⊆ q)
    (hl : l ⊆ m) : KeepsBut q m s t := by
  obtain ⟨hv, hi, hpc, hsp, hstack, hmem, hfb, hdirty, hdt, hst, hkey, hhalt, hcause, hdraws⟩ := h
  have out : ∀ {a : Piece}, a ∉ q → a ∉ p := fun n h => n (hp h)
  exact ⟨fun r n => hv r fun h => n (hl h), fun n => hi (out n), fun n => hpc (out n), fun n => hsp (out n),
    fun n => hstack (out n), fun n => hmem (out n), fun n => hfb (out n), fun n => hdirty (out n), fun n => hdt (out n),
    fun n => hst (out n), fun n => hkey (out n), fun n => hhalt (out n), fun n => hcause (out n), fun n => hdraws (out n)⟩

theorem KeepsBut.refl (s : State) : KeepsBut [] [] s s := by
  simp [KeepsBut]

end Sys2Proof.Machine

namespace Sys2Proof.Proofs
open Sys2Proof.Machine

/-! ## The frame of each operation -/

theorem keepsBut_setV (s : State) (x : Reg) (b : Byte) : KeepsBut [] [x] s (s.setV x b) := by
  simp +contextual [KeepsBut, eq_comm]

theorem keepsBut_setFlag (s : State) (b : Byte) : KeepsBut [] [15] s (s.setFlag b) := keepsBut_setV s 15 b

theorem keepsBut_advance (s : State) (k : Nat) : KeepsBut [.pc] [] s (s.advance k) := by
  simp [KeepsBut]

theorem keepsBut_skipIf (s : State) (c : Bool) : KeepsBut [.pc] [] s (s.skipIf c) := by
  rw [State.skipIf_eq]
  exact keepsBut_advance s _

theorem keepsBut_setI (s : State) (a : Word) : KeepsBut [.i] [] s (s.setI a) := by
  simp [KeepsBut]

theorem keepsBut_bumpI (s : State) (x : Reg) : KeepsBut [.i] [] s (s.bumpI x) := keepsBut_setI s _

theorem keepsBut_setSt (s : State) (b : Byte) : KeepsBut [.st] [] s (s.setSt b) := by
  simp [KeepsBut]

theorem keepsBut_setDt (s : State) (b : Byte) : KeepsBut [.dt] [] s (s.setDt b) := by
  simp [KeepsBut]

theorem keepsBut_redraw (s : State) (d : Display) : KeepsBut [.fb, .dirty] [] s (s.redraw d) := by
  simp [KeepsBut]

theorem keepsBut_countDraw (s : State) : KeepsBut [.draws] [] s s.countDraw := by
  simp [KeepsBut]

theorem keepsBut_raise (s : State) (c : Cause) : KeepsBut [.halt, .cause] [] s (s.raise c) := by
  simp [KeepsBut]

/-- Fx65's loads put registers in place of the old ones and touch nothing else. -/
theorem loadBlock_eq (s : State) (x : Reg) (a : Nat) : ∃ w, s.loadBlock x a = { s with v := w } := ⟨_, rfl⟩

/-- The registers V0 to Vx that Fx65 loads. -/
theorem keepsBut_loadBlock (s : State) (x : Reg) (a : Nat) :
    KeepsBut [] ((List.finRange 16).filter (· ≤ x)) s (s.loadBlock x a) := by
  have hv : ∀ r, r ∉ (List.finRange 16).filter (· ≤ x) → (s.loadBlock x a).getV r = s.getV r := by
    intro r hr
    rw [State.getV_loadBlock, if_neg (by simpa using hr)]
  obtain ⟨w, hw⟩ := loadBlock_eq s x a
  rw [hw] at hv ⊢
  exact ⟨hv, by simp⟩

/-! ## The frame of each instruction -/

/-- The pieces of state an instruction writes when it completes, in the order of its operations (R27, the writers'
column); a memory write counts as one whatever it stores. -/
def writtenPieces : Instr → List Piece
  | .cls | .drw _ _ _ => [.fb, .dirty, .pc]
  | .ret => [.sp, .pc]
  | .call _ => [.stack, .sp, .pc]
  | .rnd _ _ => [.draws, .pc]
  | .ldI _ | .addI _ | .ldF _ | .ldRegs _ => [.i, .pc]
  | .ldB _ => [.mem, .pc]
  | .stRegs _ => [.mem, .i, .pc]
  | .ldDtVx _ => [.dt, .pc]
  | .ldStVx _ => [.st, .pc]
  | .jp _ | .seImm _ _ | .sneImm _ _ | .seReg _ _ | .sneReg _ _ | .ldImm _ _ | .addImm _ _ | .ldReg _ _ | .orReg _ _
  | .andReg _ _ | .xorReg _ _ | .addReg _ _ | .subReg _ _ | .shr _ _ | .subnReg _ _ | .shl _ _ | .jpV0 _ | .skp _
  | .sknp _ | .ldVxDt _ | .ldVxK _ => [.pc]

/-- The general registers an instruction writes when it completes: its destination, VF for the flag instructions, a block
for Fx65 (R12, R27). -/
def writtenRegs : Instr → List Reg
  | .ldImm x _ | .addImm x _ | .rnd x _ | .ldReg x _ | .orReg x _ | .andReg x _ | .xorReg x _ | .shr x _ | .shl x _
  | .ldVxDt x | .ldVxK x => [x]
  | .addReg x _ | .subReg x _ | .subnReg x _ => [x, 15]
  | .drw _ _ _ => [15]
  | .ldRegs x => (List.finRange 16).filter (· ≤ x)
  | .cls | .ret | .jp _ | .call _ | .seImm _ _ | .sneImm _ _ | .seReg _ _ | .sneReg _ _ | .ldI _ | .jpV0 _ | .skp _
  | .sknp _ | .ldDtVx _ | .ldStVx _ | .addI _ | .ldF _ | .ldB _ | .stRegs _ => []

/-- A completed instruction leaves everything but what it writes. -/
theorem keepsBut_of_completed {i : Instr} {s t : State} (h : Completed i s t) :
    KeepsBut (writtenPieces i) (writtenRegs i) s t := by
  cases i with
  | cls => obtain rfl := h; exact (keepsBut_redraw s _).trans (keepsBut_advance _ 2)
  | drw x y n =>
    obtain rfl := h
    exact ((keepsBut_redraw s _).trans (keepsBut_setFlag _ _)).trans (keepsBut_advance _ 2)
  | ret | call nnn => obtain ⟨-, rfl⟩ := h; simp [KeepsBut, writtenPieces, State.getV]
  | jp nnn | jpV0 nnn => obtain rfl := h; exact keepsBut_setPc s _
  | seImm x kk | sneImm x kk | seReg x y | sneReg x y => obtain rfl := h; exact keepsBut_skipIf s _
  | skp x | sknp x => obtain ⟨k, -, rfl⟩ := h; exact keepsBut_skipIf s _
  | rnd x kk =>
    obtain rfl := h
    exact ((keepsBut_countDraw s).trans (keepsBut_setV _ x _)).trans (keepsBut_advance _ 2)
  | addReg x y | subReg x y | subnReg x y =>
    obtain rfl := h
    exact ((keepsBut_setV s x _).trans (keepsBut_setFlag _ _)).trans (keepsBut_advance _ 2)
  | ldImm x kk | addImm x kk => obtain rfl := h; exact (keepsBut_setV s x _).trans (keepsBut_advance _ 2)
  | ldReg x y | orReg x y | andReg x y | xorReg x y | shr x y | shl x y =>
    obtain rfl := h
    exact (keepsBut_setV s x _).trans (keepsBut_advance _ 2)
  | ldVxDt x => obtain rfl := h; exact (keepsBut_setV s x _).trans (keepsBut_advance _ 2)
  | ldVxK x =>
    obtain ⟨-, rfl⟩ | ⟨k, -, -, rfl⟩ := h
    · exact (KeepsBut.refl _).mono (List.nil_subset _) (List.nil_subset _)
    · exact (keepsBut_setV s x _).trans (keepsBut_advance _ 2)
  | ldI nnn => obtain rfl := h; exact (keepsBut_setI s _).trans (keepsBut_advance _ 2)
  | addI x | ldF x => obtain rfl := h; exact (keepsBut_setI s _).trans (keepsBut_advance _ 2)
  | ldDtVx x => obtain rfl := h; exact (keepsBut_setDt s _).trans (keepsBut_advance _ 2)
  | ldStVx x => obtain rfl := h; exact (keepsBut_setSt s _).trans (keepsBut_advance _ 2)
  | ldB x => obtain rfl := h; exact (keepsBut_setMem s _).trans (keepsBut_advance _ 2)
  | stRegs x =>
    obtain rfl := h
    exact ((keepsBut_setMem s _).trans (keepsBut_bumpI _ x)).trans (keepsBut_advance _ 2)
  | ldRegs x =>
    obtain rfl := h
    have hk := ((keepsBut_loadBlock s x s.i.toNat).trans (keepsBut_bumpI _ x)).trans (keepsBut_advance _ 2)
    exact hk.mono (List.Subset.refl _) (by simp [writtenRegs])

/-- The same in a wider frame, with the pieces in an order of one's own. -/
theorem keepsBut_of_completed_subset {i : Instr} {s t : State} {p : List Piece} (h : Completed i s t)
    (hp : writtenPieces i ⊆ p) : KeepsBut p (writtenRegs i) s t :=
  (keepsBut_of_completed h).mono hp (List.Subset.refl _)

/-- An instruction that answers a next state leaves everything but what it writes, and HALT and CAUSE. -/
theorem keepsBut_of_exec {i : Instr} {s t : State} (h : exec i s = .next t) :
    KeepsBut (writtenPieces i ++ [.halt, .cause]) (writtenRegs i) s t := by
  rcases exec_next_cases h with ⟨c, -, rfl⟩ | ⟨-, hc⟩
  · exact (keepsBut_raise s c).mono (List.subset_append_right _ _) (List.nil_subset _)
  · exact (keepsBut_of_completed hc).mono (List.subset_append_left _ _) (List.Subset.refl _)

/-- No instruction writes HALT or CAUSE when it completes. -/
theorem halt_of_completed {i : Instr} {s t : State} (h : Completed i s t) : t.halt = s.halt ∧ t.cause = s.cause := by
  obtain ⟨-, -, -, -, -, -, -, -, -, -, -, hhalt, hcause, -⟩ := keepsBut_of_completed h
  exact ⟨hhalt (by cases i <;> simp [writtenPieces]), hcause (by cases i <;> simp [writtenPieces])⟩

end Sys2Proof.Proofs
end

section
/-! The proofs about the whole STEP (spec/40_step_cycle.md, spec/60_exceptions.md): when an instruction answers, what the
STEP makes of its answer, and the fatal faults. -/

namespace Sys2Proof.Proofs
open Sys2Proof.Machine

/-! ## When an instruction answers a next state -/

/-- The one way an instruction stops the model: a call or a return with SP above 16 (assumption 6). -/
def Stops (i : Instr) (s : State) : Prop := (i = .ret ∨ ∃ nnn, i = .call nnn) ∧ 16 < s.sp.toNat

theorem exec_of_stops {i : Instr} {s : State} (h : Stops i s) : exec i s = .fault (.stackPointerOutOfRange s.sp) := by
  obtain ⟨rfl | ⟨nnn, rfl⟩, hsp⟩ := h
  · exact State.pop_outOfRange hsp
  · exact State.push_outOfRange _ _ hsp

theorem guardData_answers (s : State) (n : Nat) (go : State) : ∃ t, s.guardData n go = .next t := by
  unfold State.guardData
  split <;> exact ⟨_, rfl⟩

theorem withKeyIndex_answers (s : State) (x : Reg) (go : Key → State) : ∃ t, s.withKeyIndex x go = .next t := by
  unfold State.withKeyIndex
  split <;> exact ⟨_, rfl⟩

theorem push_answers {s : State} (a target : Word) (h : s.sp.toNat ≤ 16) : ∃ t, s.push a target = .next t := by
  rcases Nat.lt_or_eq_of_le h with hlt | heq
  · exact ⟨_, State.push_next a target hlt⟩
  · exact ⟨_, State.push_full a target (BitVec.eq_of_toNat_eq heq)⟩

theorem pop_answers {s : State} (h : s.sp.toNat ≤ 16) : ∃ t, s.pop = .next t := by
  by_cases h0 : s.sp = 0
  · exact ⟨_, State.pop_empty h0⟩
  · exact ⟨_, State.pop_next h0 (by bv_omega)⟩

/-- Every other instruction answers a next state. -/
theorem exec_answers {i : Instr} {s : State} (h : ¬ Stops i s) : ∃ t, exec i s = .next t := by
  cases i with
  | ret => exact pop_answers (Nat.not_lt.mp fun hsp => h ⟨.inl rfl, hsp⟩)
  | call nnn => exact push_answers _ _ (Nat.not_lt.mp fun hsp => h ⟨.inr ⟨nnn, rfl⟩, hsp⟩)
  | drw x y n => exact guardData_answers s _ _
  | ldB x | stRegs x | ldRegs x => exact guardData_answers s _ _
  | skp x => exact withKeyIndex_answers s x fun k => s.skipIf (s.keyDown k)
  | sknp x => exact withKeyIndex_answers s x fun k => s.skipIf (!s.keyDown k)
  | ldVxK x =>
    rw [exec, execLdVxK]
    split <;> exact ⟨_, rfl⟩
  | _ => exact ⟨_, rfl⟩

/-- No instruction is refused. -/
theorem exec_ne_refused (i : Instr) (s : State) (r : Refusal) : exec i s ≠ .refused r := by
  intro h
  by_cases hstop : Stops i s
  · exact nomatch (exec_of_stops hstop).symm.trans h
  · obtain ⟨t, ht⟩ := exec_answers hstop
    exact nomatch ht.symm.trans h

/-! ## When a STEP answers -/

theorem closeStep_answers (t : State) : ∃ p, closeStep (.next t) = .next p := by
  cases ht : t.halt
  · exact ⟨_, closeStep_next ht⟩
  · exact ⟨_, closeStep_halted ht⟩

/-- With a stack pointer of at most 16 a STEP answers a next state. -/
theorem cycle_answers {s : State} (hsp : s.sp.toNat ≤ 16) : ∃ p, cycle s = .next p := by
  cases hh : s.halt with
  | true => exact ⟨_, cycle_of_halted hh⟩
  | false =>
    cases hf : s.fetch with
    | none => exact ⟨_, cycle_of_fetch_none hh hf⟩
    | some w =>
      cases hd : decodeWord w with
      | error e => exact ⟨_, cycle_of_unrecognized hh hf hd⟩
      | ok i =>
        obtain ⟨t, ht⟩ := exec_answers (i := i) fun hstop => Nat.not_lt.mpr hsp hstop.2
        rw [cycle_of_instr hh hf hd, ht]
        exact closeStep_answers t

/-- The state part of a STEP whose outcome is known. -/
theorem step_of_cycle {s t : State} {o : StepOutput} (h : cycle s = .next (t, o)) : step s = .next t :=
  step_eq_next.mpr ⟨o, h⟩

/-- Settles O14: only a call or a return with SP above 16 stops the model (`cycle_answers`). -/
theorem stepAlwaysReturns : Obligations.StepAlwaysReturns := by
  intro s hsp
  obtain ⟨⟨t, o⟩, h⟩ := cycle_answers hsp
  exact ⟨t, step_of_cycle h⟩

/-! ## What the STEP makes of the answer -/

/-- Two bytes that decode are one word that decodes, with nothing left over (R45). -/
theorem decodeWord_of_decodeBytes {a b : Byte} {i : Instr} {rest : List Byte}
    (h : decodeBytes [a, b] = .ok (i, rest)) : decodeWord (wordOfBytes a b) = .ok i ∧ rest = [] := by
  rw [decodeBytes] at h
  cases hd : decodeWord (wordOfBytes a b) with
  | error e => rw [hd] at h; exact nomatch h
  | ok j => rw [hd] at h; cases h; exact ⟨rfl, rfl⟩

/-- Settles O8: the STEP closes on the instruction's answer (`cycle_of_instr`): at once when it is halted or a fault of the
model, with the timer update otherwise. -/
theorem stepRunsDecodedInstruction : Obligations.StepRunsDecodedInstruction := by
  intro s i rest hh hpc hdec
  obtain ⟨hd, hrest⟩ := decodeWord_of_decodeBytes hdec
  have hcycle : cycle s = closeStep (exec i s) := cycle_of_instr hh (State.fetch_some hpc) hd
  refine ⟨(encodeInvertsDecode _ i hd).1, hrest, ?halted, ?completed, ?stopped, exec_ne_refused i s⟩
  case halted =>
    intro t ht hhalt
    rw [ht, closeStep_halted hhalt] at hcycle
    exact ⟨hcycle, step_of_cycle hcycle⟩
  case completed =>
    intro t ht hhalt
    rw [ht, closeStep_next hhalt] at hcycle
    exact ⟨hcycle, step_of_cycle hcycle⟩
  case stopped =>
    intro r hr
    rw [hr] at hcycle
    exact ⟨hcycle, congrArg stateOf hcycle⟩

/-- Settles O9: the halt test comes before the fetch. -/
theorem haltedStepChangesNothing : Obligations.HaltedStepChangesNothing :=
  fun _ hs => cycle_of_halted hs

/-- Settles O10: from 0x0FFF up there is no word at PC (`State.fetch_eq_none`). -/
theorem fetchBeyondMemoryFaults : Obligations.FetchBeyondMemoryFaults :=
  fun _ hs hpc => cycle_of_fetch_none hs (State.fetch_eq_none.mpr hpc)

/-- The timer update leaves everything but the timers. -/
theorem keepsBut_tick (s : State) : KeepsBut [.dt, .st] [] s s.tick := by
  simp [KeepsBut]

/-- Settles O11: the STEP is the default advance and the timer update (`State.skipUnrecognized`). -/
theorem unrecognizedWordIsSkipped : Obligations.UnrecognizedWordIsSkipped := by
  intro s w e hs hf hd
  exact ⟨_, cycle_of_unrecognized hs hf hd, rfl, countDown_toNat s.dt, countDown_toNat s.st,
    (keepsBut_advance s 2).trans (keepsBut_tick _)⟩

/-! ## Fatal faults -/

/-- A fault that is due has a cause (R130). -/
theorem faultDue_ne_some_none (i : Instr) (s : State) : faultDue i s ≠ some .none := by
  cases i <;> simp [faultDue]

/-- Settles O46: a STEP that ends halted took the fetch fault or the instruction's own (`exec_next_cases`), and each is
`State.raise`; the timer update does not touch HALT. -/
theorem faultingStepIsPrecise : Obligations.FaultingStepIsPrecise := by
  intro s t o hs h ht
  rcases cycle_next_cases h with ⟨hh, -⟩ | ⟨-, -, rfl, rfl⟩ | ⟨w, e, -, -, -, hto⟩ | ⟨w, i, u, -, -, -, -, hu, hto⟩ |
    ⟨w, i, -, -, -, hx, -, ho⟩
  · exact absurd hh (by simp [hs])
  · exact ⟨rfl, nofun, rfl⟩
  · cases hto
    exact absurd ht (by simp [hs])
  · cases hto
    exact absurd ht (by simp [hu])
  · rcases exec_next_cases hx with ⟨c, hdue, rfl⟩ | ⟨-, hc⟩
    · exact ⟨rfl, fun hnone => faultDue_ne_some_none i s (hnone ▸ hdue), ho⟩
    · exact absurd ht (by simp [(halt_of_completed hc).1, hs])

/-- Settles O47: an instruction took its own fault, with that cause, or completed, which leaves HALT
(`halt_of_completed`). -/
theorem faultConditionsAndCauses : Obligations.FaultConditionsAndCauses := by
  intro i s t hs hx
  rcases exec_next_cases hx with ⟨c, hdue, rfl⟩ | ⟨hdue, hc⟩
  · exact ⟨iff_of_true rfl (by simp [hdue]), fun _ => hdue⟩
  · have ht : ¬ t.halt = true := by simp [(halt_of_completed hc).1, hs]
    exact ⟨iff_of_false ht (by simp [hdue]), fun h => absurd h ht⟩

end Sys2Proof.Proofs
end

section
/-! The proofs about the access matrix of the state (spec/10_state.md sections 3 and 10): who writes VF, who writes each
piece, and that nothing reads the pieces kept for the host. -/

namespace Sys2Proof.Proofs
open Sys2Proof.Machine

/-! ## The flag register -/

theorem flagByte_eq_zero_or_one (c : Bool) : flagByte c = 0 ∨ flagByte c = 1 := by
  cases c
  · exact .inl rfl
  · exact .inr rfl

/-- VF after a flag written last. -/
theorem getV_flag_setFlag_advance (s : State) (b : Byte) (k : Nat) : ((s.setFlag b).advance k).getV 15 = b := by
  rw [State.getV_advance, State.setFlag_eq_setV, State.getV_setV, if_pos (show flagReg = 15 from rfl)]

/-- A register that a completed instruction does not write. -/
theorem getV_of_completed {i : Instr} {s t : State} {r : Reg} (h : Completed i s t) (hr : r ∉ writtenRegs i) :
    t.getV r = s.getV r :=
  (keepsBut_of_completed h).1 r hr

/-- Settles O48: the four flag instructions write a flag byte to VF last, and VF is a written register of the others only
as their destination (`writtenRegs`). -/
theorem flagIsWrittenByFourInstructions : Obligations.FlagIsWrittenByFourInstructions := by
  intro i s t _ hx ht
  obtain ⟨-, hc⟩ := completed_of_exec hx ht
  cases i with
  | addReg x y | subReg x y | subnReg x y | drw x y n =>
    obtain rfl := hc
    simp only [getV_flag_setFlag_advance]
    exact flagByte_eq_zero_or_one _
  | ldRegs x =>
    intro hne
    have hlt : ¬ 15 ≤ x := fun h => hne (Fin.le_antisymm (Fin.le_last x) h)
    exact getV_of_completed hc (by simp [writtenRegs, hlt])
  | ldImm x kk | addImm x kk | rnd x kk | ldReg x y | orReg x y | andReg x y | xorReg x y | shr x y | shl x y =>
    exact fun hne => getV_of_completed hc (by simp [writtenRegs, hne.symm])
  | ldVxDt x | ldVxK x => exact fun hne => getV_of_completed hc (by simp [writtenRegs, hne.symm])
  | _ => exact getV_of_completed hc (by simp [writtenRegs])

/-! ## The writers of each piece (R27) -/

theorem register_writers {i : Instr} {r : Reg} (h : r ∈ writtenRegs i) :
    (∃ x kk, i = .ldImm x kk ∨ i = .addImm x kk ∨ i = .rnd x kk) ∨
    (∃ x y, i = .ldReg x y ∨ i = .orReg x y ∨ i = .andReg x y ∨ i = .xorReg x y ∨ i = .addReg x y ∨ i = .subReg x y ∨
      i = .shr x y ∨ i = .subnReg x y ∨ i = .shl x y) ∨
    (∃ x, i = .ldVxDt x ∨ i = .ldVxK x ∨ i = .ldRegs x) ∨ ∃ x y n, i = .drw x y n := by
  cases i <;> simp_all [writtenRegs]

theorem index_writers {i : Instr} (h : .i ∈ writtenPieces i) :
    (∃ n, i = .ldI n) ∨ ∃ x, i = .addI x ∨ i = .ldF x ∨ i = .stRegs x ∨ i = .ldRegs x := by
  cases i <;> simp_all [writtenPieces]

theorem sp_writers {i : Instr} (h : .sp ∈ writtenPieces i) : i = .ret ∨ ∃ n, i = .call n := by
  cases i <;> simp_all [writtenPieces]

theorem stack_writers {i : Instr} (h : .stack ∈ writtenPieces i) : ∃ n, i = .call n := by
  cases i <;> simp_all [writtenPieces]

theorem memory_writers {i : Instr} (h : .mem ∈ writtenPieces i) : ∃ x, i = .ldB x ∨ i = .stRegs x := by
  cases i <;> simp_all [writtenPieces]

theorem display_writers {i : Instr} (h : .fb ∈ writtenPieces i ∨ .dirty ∈ writtenPieces i) :
    i = .cls ∨ ∃ x y n, i = .drw x y n := by
  cases i <;> simp_all [writtenPieces]

theorem dt_writers {i : Instr} (h : .dt ∈ writtenPieces i) : ∃ x, i = .ldDtVx x := by
  cases i <;> simp_all [writtenPieces]

theorem st_writers {i : Instr} (h : .st ∈ writtenPieces i) : ∃ x, i = .ldStVx x := by
  cases i <;> simp_all [writtenPieces]

/-- An advance by 2 or 4 moves PC, even where it wraps. -/
theorem skipIf_pc_ne (s : State) (c : Bool) : (s.skipIf c).pc ≠ s.pc := by
  cases c <;> simp [State.skipIf]

/-- A completed instruction that leaves PC waits for a key or has a target of its own (R64). -/
theorem pc_keepers {i : Instr} {s t : State} (hc : Completed i s t) (hpc : t.pc = s.pc) :
    (∃ x, i = .ldVxK x) ∨ i = .ret ∨ ∃ n, i = .jp n ∨ i = .call n ∨ i = .jpV0 n := by
  cases i with
  | ldVxK x => exact .inl ⟨x, rfl⟩
  | ret => exact .inr (.inl rfl)
  | jp nnn => exact .inr (.inr ⟨nnn, .inl rfl⟩)
  | call nnn => exact .inr (.inr ⟨nnn, .inr (.inl rfl)⟩)
  | jpV0 nnn => exact .inr (.inr ⟨nnn, .inr (.inr rfl)⟩)
  | seImm x kk | sneImm x kk | seReg x y | sneReg x y =>
    obtain rfl := hc
    exact absurd hpc (skipIf_pc_ne s _)
  | skp x | sknp x =>
    obtain ⟨k, -, rfl⟩ := hc
    exact absurd hpc (skipIf_pc_ne s _)
  | _ =>
    obtain rfl := hc
    exact absurd hpc (skipIf_pc_ne s false)

/-- HALT and CAUSE change only by the instruction's own fault. -/
theorem faultDue_of_halt_ne {i : Instr} {s t : State} (hx : exec i s = .next t)
    (h : t.halt ≠ s.halt ∨ t.cause ≠ s.cause) : faultDue i s ≠ none := by
  rcases exec_next_cases hx with ⟨c, hdue, -⟩ | ⟨-, hc⟩
  · simp [hdue]
  · obtain ⟨hhalt, hcause⟩ := halt_of_completed hc
    exact absurd h (by simp [hhalt, hcause])

/-- Settles O49: what an instruction changes it writes (`keepsBut_of_exec`), and each piece is named by the instructions of
its row only (`register_writers` and its like). -/
theorem writersOfEachPiece : Obligations.WritersOfEachPiece := by
  intro i s t hx
  obtain ⟨hv, hi, -, hsp, hstack, hmem, hfb, hdirty, hdt, hst, -⟩ := keepsBut_of_exec hx
  have out : ∀ {p : Piece}, p ≠ .halt → p ≠ .cause → p ∉ writtenPieces i → p ∉ writtenPieces i ++ [.halt, .cause] := by
    intro p h1 h2 h3
    simp [h1, h2, h3]
  refine ⟨key_of_exec hx, ?regs, ?i, ?sp, ?stack, ?mem, ?fb, ?dt, ?st, faultDue_of_halt_ne hx, ?pc⟩
  case regs =>
    rintro ⟨r, hr⟩
    exact register_writers (by_contra fun n => hr (hv r n))
  case i => exact fun h => index_writers (by_contra fun n => h (hi (out nofun nofun n)))
  case sp => exact fun h => sp_writers (by_contra fun n => h (hsp (out nofun nofun n)))
  case stack => exact fun h => stack_writers (by_contra fun n => h (hstack (out nofun nofun n)))
  case mem =>
    rintro ⟨a, ha⟩
    exact memory_writers (by_contra fun n => ha (hmem (out nofun nofun n) a))
  case fb =>
    rintro (h | h)
    · exact display_writers (.inl (by_contra fun n => h (hfb (out nofun nofun n))))
    · exact display_writers (.inr (by_contra fun n => h (hdirty (out nofun nofun n))))
  case dt => exact fun h => dt_writers (by_contra fun n => h (hdt (out nofun nofun n)))
  case st => exact fun h => st_writers (by_contra fun n => h (hst (out nofun nofun n)))
  case pc => exact fun hpc ht _ => pc_keepers (completed_of_exec hx ht).2 hpc

end Sys2Proof.Proofs
end

section
/-! The proof that no instruction reads what is kept for the host (spec/10_state.md section 10): two runs side by side, in
states that agree on every piece an instruction may read. -/

namespace Sys2Proof.Proofs
open Sys2Proof.Machine

/-- Two states that agree on every piece an instruction may read: all but DIRTY, ST, HALT, CAUSE and the count of draws.
Memory agrees when every byte reads the same. -/
structure HostAlike (s s' : State) : Prop where
  v : s'.v = s.v
  i : s'.i = s.i
  pc : s'.pc = s.pc
  sp : s'.sp = s.sp
  stack : s'.stack = s.stack
  mem : ∀ a, s'.mem.read a = s.mem.read a
  fb : s'.fb = s.fb
  dt : s'.dt = s.dt
  key : s'.key = s.key

/-- The agreement is the frame of the pieces left out. -/
theorem hostAlike_iff_keepsBut {s s' : State} :
    HostAlike s s' ↔ KeepsBut [.dirty, .st, .halt, .cause, .draws] [] s s' := by
  constructor
  · rintro ⟨hv, hi, hpc, hsp, hstack, hmem, hfb, hdt, hkey⟩
    simp [KeepsBut, State.getV, hv, hi, hpc, hsp, hstack, hmem, hfb, hdt, hkey]
  · intro h
    simp only [KeepsBut, List.mem_cons, List.not_mem_nil, reduceCtorEq, or_false, not_false_eq_true, true_imp_iff] at h
    obtain ⟨hv, hi, hpc, hsp, hstack, hmem, hfb, -, hdt, -, hkey, -⟩ := h
    exact ⟨Vector.ext fun k hk => hv ⟨k, hk⟩, hi, hpc, hsp, hstack, hmem, hfb, hdt, hkey⟩

namespace HostAlike
variable {s s' : State} (h : HostAlike s s')
include h

/-! ## What agreeing states answer to every read -/

theorem getV (x : Reg) : s'.getV x = s.getV x := State.getV_congr h.v x

theorem keyDown : s'.keyDown = s.keyDown := by
  funext k
  simp only [State.keyDown, h.key]

theorem pressed : s'.pressed = s.pressed := by
  rw [State.pressed, h.keyDown, State.pressed]

theorem block (x : Reg) : s'.block x = s.block x := by
  rw [State.block, h.v, State.block]

theorem drawn (xs ys : Byte) (n : Nat) : s'.drawn xs ys n = s.drawn xs ys n := by
  simp only [State.drawn, Memory.readBytes, h.fb, h.i, h.mem]

theorem read_writeBytes (a : Nat) (bs : List Byte) (c : Nat) :
    (s'.mem.writeBytes a bs).read c = (s.mem.writeBytes a bs).read c := by
  rw [Memory.read_writeBytes, Memory.read_writeBytes, h.mem]

theorem faultDue (i : Instr) : faultDue i s' = faultDue i s := by
  cases i <;> simp only [Machine.faultDue, h.sp, h.i, h.getV]

theorem stops (i : Instr) : Stops i s' ↔ Stops i s := by
  rw [Stops, h.sp, Stops]

/-! ## Every operation keeps the agreement -/

theorem setV (x : Reg) (b : Byte) : HostAlike (s.setV x b) (s'.setV x b) :=
  { h with v := congrArg (·.set x.val b) h.v }

theorem setI (a : Word) : HostAlike (s.setI a) (s'.setI a) := { h with i := rfl }

theorem setPc (a : Word) : HostAlike (s.setPc a) (s'.setPc a) := { h with pc := rfl }

theorem advance (k : Nat) : HostAlike (s.advance k) (s'.advance k) :=
  { h with pc := congrArg (· + BitVec.ofNat 16 k) h.pc }

theorem skipIf (c : Bool) : HostAlike (s.skipIf c) (s'.skipIf c) := by
  rw [State.skipIf_eq, State.skipIf_eq]
  exact h.advance _

theorem writeBytes (a : Nat) (bs : List Byte) :
    HostAlike (s.setMem (s.mem.writeBytes a bs)) (s'.setMem (s'.mem.writeBytes a bs)) :=
  { h with mem := h.read_writeBytes a bs }

theorem setDt (b : Byte) : HostAlike (s.setDt b) (s'.setDt b) := { h with dt := rfl }

theorem setSt (b : Byte) : HostAlike (s.setSt b) (s'.setSt b) := { h with }

theorem redraw (d : Display) : HostAlike (s.redraw d) (s'.redraw d) := { h with fb := rfl }

theorem countDraw : HostAlike s.countDraw s'.countDraw := { h with }

theorem raise (c : Cause) : HostAlike (s.raise c) (s'.raise c) := { h with }

theorem bumpI (x : Reg) : HostAlike (s.bumpI x) (s'.bumpI x) :=
  { h with i := congrArg (· + BitVec.ofNat 16 (x.val + 1)) h.i }

/-- The same registers put in place of all sixteen. -/
theorem replaceV (w : Vector Byte 16) : HostAlike { s with v := w } { s' with v := w } := { h with v := rfl }

theorem loadBlock (x : Reg) (a : Nat) : HostAlike (s.loadBlock x a) (s'.loadBlock x a) := by
  simp only [State.loadBlock, h.mem, h.getV]
  exact h.replaceV _

/-- Agreeing states complete an instruction alike; Cxkk needs the same count of draws, which names its random byte. -/
theorem completed {i : Instr} {t t' : State} (hd : s'.draws = s.draws ∨ ∀ x kk, i ≠ .rnd x kk)
    (hc : Completed i s t) (hc' : Completed i s' t') : HostAlike t t' := by
  cases i with
  | cls => obtain rfl := hc; obtain rfl := hc'; exact (h.redraw _).advance 2
  | ret =>
    obtain ⟨-, rfl⟩ := hc
    obtain ⟨-, rfl⟩ := hc'
    exact { h with sp := congrArg (· - 1) h.sp, pc := by simp only [h.sp, h.stack] }
  | jp nnn => obtain rfl := hc; obtain rfl := hc'; exact h.setPc _
  | call nnn =>
    obtain ⟨-, rfl⟩ := hc
    obtain ⟨-, rfl⟩ := hc'
    exact { h with sp := congrArg (· + 1) h.sp, pc := rfl, stack := by simp only [h.sp, h.stack, h.pc] }
  | seImm x kk | sneImm x kk | seReg x y | sneReg x y =>
    obtain rfl := hc
    obtain rfl := hc'
    simp only [h.getV]
    exact h.skipIf _
  | ldImm x kk => obtain rfl := hc; obtain rfl := hc'; exact (h.setV x kk).advance 2
  | addImm x kk =>
    obtain rfl := hc
    obtain rfl := hc'
    simp only [h.getV]
    exact (h.setV x _).advance 2
  | ldReg x y | orReg x y | andReg x y | xorReg x y | shr x y | shl x y =>
    obtain rfl := hc
    obtain rfl := hc'
    simp only [h.getV]
    exact (h.setV x _).advance 2
  | addReg x y | subReg x y | subnReg x y =>
    obtain rfl := hc
    obtain rfl := hc'
    simp only [h.getV]
    exact ((h.setV x _).setV 15 _).advance 2
  | ldI nnn => obtain rfl := hc; obtain rfl := hc'; exact (h.setI _).advance 2
  | jpV0 nnn =>
    obtain rfl := hc
    obtain rfl := hc'
    simp only [h.getV]
    exact h.setPc _
  | rnd x kk =>
    obtain rfl := hc
    obtain rfl := hc'
    have hdraws : s'.draws = s.draws := hd.resolve_right fun hne => hne x kk rfl
    simp only [State.rndByte, hdraws]
    exact (h.countDraw.setV x _).advance 2
  | drw x y n =>
    obtain rfl := hc
    obtain rfl := hc'
    simp only [h.getV, h.drawn]
    exact ((h.redraw _).setV 15 _).advance 2
  | skp x | sknp x =>
    obtain ⟨k, hk, rfl⟩ := hc
    obtain ⟨k', hk', rfl⟩ := hc'
    obtain rfl : k' = k := Fin.ext (by rw [hk, hk', h.getV])
    simp only [h.keyDown]
    exact h.skipIf _
  | ldVxDt x =>
    obtain rfl := hc
    obtain rfl := hc'
    simp only [h.dt]
    exact (h.setV x _).advance 2
  | ldVxK x =>
    rw [Completed, h.pressed] at hc'
    obtain ⟨hnil, rfl⟩ | ⟨k, hk, hpick, rfl⟩ := hc
    · obtain ⟨-, rfl⟩ | ⟨k', hk', -, rfl⟩ := hc'
      · exact h
      · exact absurd hk' (by simp [hnil])
    · obtain ⟨hnil, rfl⟩ | ⟨k', -, hpick', rfl⟩ := hc'
      · exact absurd hk (by simp [hnil])
      · obtain rfl : k' = k := Option.some.inj (hpick'.symm.trans hpick)
        exact (h.setV x _).advance 2
  | ldDtVx x =>
    obtain rfl := hc
    obtain rfl := hc'
    simp only [h.getV]
    exact (h.setDt _).advance 2
  | ldStVx x =>
    obtain rfl := hc
    obtain rfl := hc'
    simp only [h.getV]
    exact (h.setSt _).advance 2
  | addI x | ldF x =>
    obtain rfl := hc
    obtain rfl := hc'
    simp only [h.getV, h.i]
    exact (h.setI _).advance 2
  | ldB x =>
    obtain rfl := hc
    obtain rfl := hc'
    simp only [h.getV, h.i]
    exact (h.writeBytes _ _).advance 2
  | stRegs x =>
    obtain rfl := hc
    obtain rfl := hc'
    simp only [h.block, h.i]
    exact ((h.writeBytes _ _).bumpI x).advance 2
  | ldRegs x =>
    obtain rfl := hc
    obtain rfl := hc'
    simp only [h.i]
    exact ((h.loadBlock x _).bumpI x).advance 2

/-- Agreeing states take the same fault or complete alike. -/
theorem exec_next {i : Instr} {t t' : State} (hd : s'.draws = s.draws ∨ ∀ x kk, i ≠ .rnd x kk)
    (hx : exec i s = .next t) (hx' : exec i s' = .next t') : HostAlike t t' := by
  rcases exec_next_cases hx with ⟨c, hdue, rfl⟩ | ⟨hdue, hc⟩ <;>
    rcases exec_next_cases hx' with ⟨c', hdue', rfl⟩ | ⟨hdue', hc'⟩ <;> rw [h.faultDue, hdue] at hdue'
  · cases hdue'
    exact h.raise c
  · exact nomatch hdue'
  · exact nomatch hdue'
  · exact h.completed hd hc hc'

end HostAlike

/-- Settles O50: agreeing states stop alike (`HostAlike.stops`), and otherwise both answer a next state, in agreement
(`HostAlike.exec_next`). -/
theorem hostSideStateIsNotRead : Obligations.HostSideStateIsNotRead := by
  intro i s s' hd hkeeps
  have h := hostAlike_iff_keepsBut.mpr hkeeps
  by_cases hstop : Stops i s
  · rw [exec_of_stops hstop, exec_of_stops ((h.stops i).mpr hstop)]
    exact congrArg _ h.sp.symm
  · obtain ⟨t, ht⟩ := exec_answers hstop
    obtain ⟨t', ht'⟩ := exec_answers fun hstop' => hstop ((h.stops i).mp hstop')
    rw [ht, ht']
    exact hostAlike_iff_keepsBut.mp (h.exec_next hd ht ht')

end Sys2Proof.Proofs
end

section
/-! The proofs about the invariant (spec/10_state.md section 9): every instruction, STEP and transaction keeps it, so every
reachable state has it and stops in none. -/

namespace Sys2Proof.Proofs
open Sys2Proof.Machine

/-! ## The stack pointer as a number -/

theorem sp_add_one_toNat {a : Byte} (h : a.toNat < 16) : (a + 1).toNat = a.toNat + 1 := by
  bv_omega

theorem sp_sub_one_toNat {a : Byte} (h : 1 ≤ a.toNat) : (a - 1).toNat = a.toNat - 1 := by
  bv_omega

/-! ## The invariant under an instruction -/

/-- A write of PC within bounds keeps the invariant. -/
theorem inv_setPc {s : State} {a : Word} (h : s.Inv) (ha : a.toNat ≤ 0x1100) : (s.setPc a).Inv := by
  obtain ⟨hsp, -, hstack, hcause, hmem⟩ := h
  exact ⟨hsp, ha, hstack, hcause, hmem⟩

/-- An advance from a fetchable PC keeps the invariant. -/
theorem inv_advance {s : State} {k : Nat} (h : s.Inv) (hpc : s.pc.toNat ≤ 0xFFE) (hk : k ≤ 4) : (s.advance k).Inv := by
  refine inv_setPc h ?_
  rw [toNat_add_of_fetchable hpc hk]
  omega

theorem inv_skipIf {s : State} (c : Bool) (h : s.Inv) (hpc : s.pc.toNat ≤ 0xFFE) : (s.skipIf c).Inv := by
  rw [State.skipIf_eq]
  exact inv_advance h hpc (by cases c <;> decide)

/-- A block write inside MEM keeps the invariant. -/
theorem inv_writeBytes {s : State} {a : Nat} {bs : List Byte} (h : s.Inv) (ha : a + bs.length ≤ 0x1000) :
    (s.setMem (s.mem.writeBytes a bs)).Inv := by
  obtain ⟨hsp, hpc, hstack, hcause, hmem⟩ := h
  exact ⟨hsp, hpc, hstack, hcause, Memory.wf_writeBytes hmem ha⟩

/-- A fatal fault keeps the invariant: it sets HALT with a cause. -/
theorem inv_raise {s : State} {c : Cause} (h : s.Inv) (hc : c ≠ .none) : (s.raise c).Inv := by
  obtain ⟨hsp, hpc, hstack, -, hmem⟩ := h
  exact ⟨hsp, hpc, hstack, iff_of_false hc nofun, hmem⟩

/-- A call from a fetchable PC pushes an address that a return can go back to. -/
theorem inv_call {s t : State} {nnn : Addr} (h : s.Inv) (hpc : s.pc.toNat ≤ 0xFFE) (hc : Completed (.call nnn) s t) :
    t.Inv := by
  obtain ⟨hsp, -, hstack, hcause, hmem⟩ := h
  obtain ⟨hlt, rfl⟩ := hc
  have hsp' := sp_add_one_toNat hlt
  have hnnn := nnn.isLt
  refine ⟨by simp only [hsp']; omega, by simp only [addrWord_toNat]; omega, fun j hj => ?_, hcause, hmem⟩
  simp only [hsp'] at hj
  simp only [Vector.getElem_set]
  split
  · exact hpc
  · exact hstack j (by omega)

/-- A return from a stack that is not empty goes 2 above an address that a call pushed. -/
theorem inv_ret {s t : State} (h : s.Inv) (hdue : faultDue .ret s = none) (hc : Completed .ret s t) : t.Inv := by
  obtain ⟨hsp, -, hstack, hcause, hmem⟩ := h
  obtain ⟨hlt, rfl⟩ := hc
  have h0 : s.sp.toNat ≠ 0 := fun h0 => nomatch hdue.symm.trans (if_pos h0)
  have hsp' := sp_sub_one_toNat (Nat.one_le_iff_ne_zero.mpr h0)
  have htop : s.stack[s.sp.toNat - 1].toNat ≤ 0xFFE := hstack ⟨_, hlt⟩ (by simp only; omega)
  have hpc : (s.stack[s.sp.toNat - 1] + 2).toNat = s.stack[s.sp.toNat - 1].toNat + 2 :=
    toNat_add_of_fetchable htop (by decide)
  refine ⟨by simp only [hsp']; omega, by simp only [hpc]; omega, fun j hj => hstack j ?_, hcause, hmem⟩
  simp only [hsp'] at hj
  omega

/-- From a fetchable PC an instruction that completes keeps the invariant: the write of a register, I, the display, a timer
or the count of draws touches no clause of it, and the other writes stay within their bounds. -/
theorem inv_of_completed {i : Instr} {s t : State} (h : s.Inv) (hpc : s.pc.toNat ≤ 0xFFE) (hdue : faultDue i s = none)
    (hc : Completed i s t) : t.Inv := by
  cases i with
  | call nnn => exact inv_call h hpc hc
  | ret => exact inv_ret h hdue hc
  | jp nnn =>
    obtain rfl := hc
    exact inv_setPc h (by rw [addrWord_toNat]; omega)
  | jpV0 nnn =>
    obtain rfl := hc
    exact inv_setPc h (by rw [jpV0_target_toNat]; omega)
  | seImm x kk | sneImm x kk | seReg x y | sneReg x y =>
    obtain rfl := hc
    exact inv_skipIf _ h hpc
  | skp x | sknp x =>
    obtain ⟨k, -, rfl⟩ := hc
    exact inv_skipIf _ h hpc
  | ldVxK x =>
    obtain ⟨-, rfl⟩ | ⟨k, -, -, rfl⟩ := hc
    · exact h
    · exact inv_advance (s := s.setV x _) h hpc (by decide)
  | ldB x =>
    obtain rfl := hc
    have hi : ¬ 0xFFF < s.i.toNat + 2 := fun hi => nomatch hdue.symm.trans (if_pos hi)
    exact inv_advance (inv_writeBytes h (by simp only [decimalDigits, List.length]; omega)) hpc (by decide)
  | stRegs x =>
    obtain rfl := hc
    have hi : ¬ 0xFFF < s.i.toNat + x.val := fun hi => nomatch hdue.symm.trans (if_pos hi)
    have hw := inv_writeBytes (a := s.i.toNat) (bs := s.block x) h (by rw [State.length_block]; omega)
    exact inv_advance (s := State.bumpI _ x) hw hpc (by decide)
  | ldRegs x =>
    obtain rfl := hc
    obtain ⟨w, hw⟩ := loadBlock_eq s x s.i.toNat
    rw [hw]
    exact inv_advance (s := State.bumpI { s with v := w } x) h hpc (by decide)
  | _ =>
    obtain rfl := hc
    exact inv_advance (k := 2) h hpc (by decide)

/-- From a fetchable PC an instruction that answers a next state keeps the invariant. -/
theorem inv_of_exec {i : Instr} {s t : State} (h : s.Inv) (hpc : s.pc.toNat ≤ 0xFFE) (hx : exec i s = .next t) :
    t.Inv := by
  rcases exec_next_cases hx with ⟨c, hdue, rfl⟩ | ⟨hdue, hc⟩
  · exact inv_raise h fun hnone => faultDue_ne_some_none i s (hnone ▸ hdue)
  · exact inv_of_completed h hpc hdue hc

/-! ## The invariant under a STEP -/

/-- A PC with a word at it is fetchable. -/
theorem pc_le_of_fetch {s : State} {w : Word} (h : s.fetch = some w) : s.pc.toNat ≤ 0xFFE := by
  have hpc : ¬ 0x0FFF ≤ s.pc.toNat := fun hle => nomatch h.symm.trans (State.fetch_eq_none.mpr hle)
  omega

/-- The timers are no part of the invariant. -/
theorem inv_tick {s : State} (h : s.Inv) : s.tick.Inv := h

/-- Every STEP keeps the invariant. -/
theorem inv_of_cycle {s t : State} {o : StepOutput} (h : s.Inv) (hx : cycle s = .next (t, o)) : t.Inv := by
  rcases cycle_next_cases hx with ⟨-, rfl, -⟩ | ⟨-, -, rfl, -⟩ | ⟨w, e, -, hf, -, hto⟩ | ⟨w, i, u, -, hf, -, hu, -, hto⟩ |
    ⟨w, i, -, hf, -, hu, -⟩
  · exact h
  · exact inv_raise h nofun
  · cases hto
    exact inv_tick (inv_advance h (pc_le_of_fetch hf) (by decide))
  · cases hto
    exact inv_tick (inv_of_exec h (pc_le_of_fetch hf) hu)
  · exact inv_of_exec h (pc_le_of_fetch hf) hu

/-- Settles O52: each way a STEP answers keeps the invariant (`inv_of_cycle`). -/
theorem stepKeepsInvariant : Obligations.StepKeepsInvariant := by
  intro s t h hx
  obtain ⟨o, ho⟩ := step_eq_next.mp hx
  exact inv_of_cycle h ho

/-! ## The invariant under the host's transactions -/

/-- Settles O51: at reset every clause is one of numbers and of an empty list of cells. -/
theorem invariantHoldsAtReset : Obligations.InvariantHoldsAtReset := by
  unfold Obligations.InvariantHoldsAtReset
  decide

/-- The count of draws is no part of the invariant. -/
theorem inv_reset (n : Nat) : State.Inv { State.reset with draws := n } := invariantHoldsAtReset

/-- A STEP as a transaction is the STEP. -/
theorem cycle_of_transact_step {s t : State} {r : Response} (h : transact .step s = .next (t, r)) :
    ∃ o, cycle s = .next (t, o) := by
  rw [transact] at h
  cases hc : cycle s with
  | next p =>
    obtain ⟨u, o⟩ := p
    rw [hc] at h
    cases h
    exact ⟨o, rfl⟩
  | fault f => rw [hc] at h; exact nomatch h
  | refused f => rw [hc] at h; exact nomatch h

/-- Settles O53: RESET and LOAD meet the invariant anew, a STEP keeps it (`inv_of_cycle`), and the other transactions touch
the keys and DIRTY at most, which are no part of it. -/
theorem transactionsKeepInvariant : Obligations.TransactionsKeepInvariant := by
  intro a s t r h hx
  cases a with
  | reset => cases hx; exact inv_reset s.draws
  | load image =>
    by_cases hlen : image.length ≤ Config.maxProg
    · rw [transact_load_of_le s hlen] at hx
      cases hx
      exact inv_writeBytes h (Nat.add_le_add_left hlen Config.progBase)
    · rw [transact_load_of_lt s (Nat.not_le.mp hlen)] at hx
      cases hx
      exact h
  | step =>
    obtain ⟨o, ho⟩ := cycle_of_transact_step hx
    exact inv_of_cycle h ho
  | setKey k p => cases hx; exact h
  | fbRead | stSample => cases hx; exact h
  | dirtyConsume => cases hx; exact h

/-- With a stack pointer of at most 16 every transaction answers. -/
theorem transact_answers (a : Transaction) {s : State} (hsp : s.sp.toNat ≤ 16) : ∃ p, transact a s = .next p := by
  cases a with
  | step =>
    obtain ⟨p, hp⟩ := cycle_answers hsp
    exact ⟨_, congrArg stepOutcome hp⟩
  | _ => exact ⟨_, rfl⟩

/-- Every reachable state has the invariant. -/
theorem inv_of_reachable {s : State} (h : Reachable s) : s.Inv := by
  induction h with
  | powerOn n => exact inv_reset n
  | transaction _ hx ih => exact transactionsKeepInvariant _ _ _ _ ih hx

/-- Settles O54: by induction on the transactions (`inv_of_reachable`); the invariant bounds the stack pointer, and then
every transaction answers (`transact_answers`). -/
theorem reachableStatesNeverStop : Obligations.ReachableStatesNeverStop := by
  intro s h
  have hinv := inv_of_reachable h
  exact ⟨hinv, fun a => transact_answers a hinv.1⟩

end Sys2Proof.Proofs
end

section
/-! The proofs about calls, returns and the settled state (spec/41_control_flow.md, spec/70_reset_and_hazards.md). -/

namespace Sys2Proof.Proofs
open Sys2Proof.Machine

/-! ## Decoding the words of the family (R50) -/

theorem decodeWord_call (nnn : Addr) : decodeWord (wordNNN 0x2000 nnn) = .ok (.call nnn) := by
  rw [wordNNN_eq_formatNNN (base := 0x2000) (op := 0x2) rfl]
  simp [decodeWord]

/-- 00EE is recognized as a whole word, as 00E0 is. -/
theorem decodeWord_ret : decodeWord 0x00EE = .ok .ret := by decide

/-! ## The statements -/

/-- Settles O19: a push writes the slot at SP (`State.push_next`), and its two checks come before the write. -/
theorem callPushesItsOwnAddress : Obligations.CallPushesItsOwnAddress := by
  intro nnn s
  refine ⟨decodeWord_call nnn, fun hsp => ?_, fun hsp => State.push_full _ _ (BitVec.eq_of_toNat_eq hsp),
    State.push_outOfRange _ _⟩
  exact ⟨_, State.push_next s.pc (addrWord nnn) hsp, Vector.getElem?_set_self hsp,
    fun j hj => Vector.getElem?_set_ne hsp hj.symm, sp_add_one_toNat hsp, addrWord_toNat nnn,
    keepsBut_of_completed_subset (i := .call nnn) ⟨hsp, rfl⟩ (by simp [writtenPieces])⟩

/-- Settles O20: a pop reads the slot below SP (`State.pop_next`) and writes none. -/
theorem returnResumesAfterCall : Obligations.ReturnResumesAfterCall := by
  intro s
  refine ⟨decodeWord_ret, fun h1 h16 => ?_, fun hsp => State.pop_empty (BitVec.eq_of_toNat_eq hsp),
    State.pop_outOfRange⟩
  have h0 : s.sp ≠ 0 := by bv_omega
  have hlt : s.sp.toNat - 1 < 16 := by omega
  exact ⟨_, _, Vector.getElem?_eq_getElem hlt, State.pop_next h0 hlt, rfl, sp_sub_one_toNat h1,
    keepsBut_of_completed_subset (i := .ret) ⟨hlt, rfl⟩ (by simp [writtenPieces])⟩

/-- Settles O21: the call leaves its own address in the slot below the new SP (`callPushesItsOwnAddress`), and the return
resumes 2 above what it finds there (`returnResumesAfterCall`). -/
theorem callReturnRoundTrip : Obligations.CallReturnRoundTrip := by
  intro nnn s t u hsp hcall husp hustack
  obtain ⟨-, hpush, -⟩ := callPushesItsOwnAddress nnn s
  obtain ⟨t', hcall', htop, -, htsp, -⟩ := hpush hsp
  cases hcall.symm.trans hcall'
  have husp' : u.sp.toNat = s.sp.toNat + 1 := by rw [husp, htsp]
  obtain ⟨-, hpop, -⟩ := returnResumesAfterCall u
  obtain ⟨v, a, ha, hret, hpc, hvsp, hkeeps⟩ := hpop (by omega) (by omega)
  rw [husp', Nat.add_sub_cancel, hustack, htop] at ha
  cases ha
  exact ⟨v, hret, hpc, BitVec.eq_of_toNat_eq (by omega), hkeeps⟩

/-- Timers at 0 stay there. -/
theorem tick_of_timers_zero {s : State} (hdt : s.dt = 0) (hst : s.st = 0) : s.tick = s := by
  have hdt' : countDown s.dt = s.dt := by rw [hdt]; rfl
  have hst' : countDown s.st = s.st := by rw [hst]; rfl
  rw [State.tick, hdt', hst']

/-- Settles O59: the jump writes the PC it finds, and the timer update leaves timers at 0 (`tick_of_timers_zero`). -/
theorem settledStateIsFixed : Obligations.SettledStateIsFixed := by
  rintro s ⟨hdt, hst, nnn, hpc, hruns⟩
  have hjump : s.setPc (addrWord nnn) = s := by rw [hpc]; rfl
  have hx : exec (.jp nnn) s = .next s := congrArg _ hjump
  rw [step_of_runs hruns hx rfl, tick_of_timers_zero hdt hst]

end Sys2Proof.Proofs
end

section
/-! The proofs about the ALU instructions that set the flag, and about the random byte (spec/42_alu.md sections 4 and 6). -/

namespace Sys2Proof.Proofs
open Sys2Proof.Machine

/-! ## Decoding the words of the family (R50) -/

theorem decodeWord_addReg (x y : Reg) : decodeWord (wordXYN 0x8004 x y 0) = .ok (.addReg x y) := by
  rw [decodeWord_family8 (base := 0x8004) (n := 0x4) rfl]
  simp [decodeFamily8]

theorem decodeWord_subReg (x y : Reg) : decodeWord (wordXYN 0x8005 x y 0) = .ok (.subReg x y) := by
  rw [decodeWord_family8 (base := 0x8005) (n := 0x5) rfl]
  simp [decodeFamily8]

theorem decodeWord_subnReg (x y : Reg) : decodeWord (wordXYN 0x8007 x y 0) = .ok (.subnReg x y) := by
  rw [decodeWord_family8 (base := 0x8007) (n := 0x7) rfl]
  simp [decodeFamily8]

theorem decodeWord_rnd (x : Reg) (kk : Byte) : decodeWord (wordXKK 0xC000 x kk) = .ok (.rnd x kk) := by
  rw [wordXKK_eq_formatXKK (base := 0xC000) (op := 0xC) rfl]
  simp [decodeWord]

/-! ## Writes of one register, then the flag -/

/-- A flag byte says whether its condition holds (R12). -/
theorem flagByte_decide (p : Prop) [Decidable p] : flagByte (decide p) = if p then 1 else 0 := by
  simp only [flagByte, decide_eq_true_eq]

/-- An instruction that answers `s.resultFlag x b f` completes with `b` in V[x] unless x is VF, `f` in VF whatever x is,
PC advanced by 2 and nothing else changed: the flag is written last (R81). -/
theorem writesRegThenFlag_of_exec {i : Instr} {s : State} {x : Reg} {b f : Byte} (hx : exec i s = s.resultFlag x b f) :
    ∃ t, exec i s = .next t ∧ (x ≠ 15 → t.getV x = b) ∧ t.getV 15 = f ∧ t.pc = s.pc + 2 ∧
      KeepsBut [.pc] [x, 15] s t := by
  have hreg : x ≠ 15 → (((s.setV x b).setFlag f).advance 2).getV x = b := by
    intro hne
    rw [State.getV_advance, State.setFlag_eq_setV, State.getV_setV, if_neg (show flagReg ≠ x from hne.symm),
      State.getV_setV, if_pos rfl]
  exact ⟨_, hx, hreg, getV_flag_setFlag_advance _ f 2, rfl,
    ((keepsBut_setV s x b).trans (keepsBut_setFlag _ f)).trans (keepsBut_advance _ 2)⟩

/-- The difference of bytes as numbers, borrowing 256. -/
theorem byte_sub_toNat (a b : Byte) : (a - b).toNat = (a.toNat + 256 - b.toNat) % 256 := by
  have hb := b.isLt
  rw [BitVec.toNat_sub]
  omega

/-! ## The statements -/

/-- Settles O26: the sum of bytes is that of numbers modulo 256, and the carry is written last
(`writesRegThenFlag_of_exec`). -/
theorem addSetsCarryLast : Obligations.AddSetsCarryLast := by
  intro x y s
  obtain ⟨t, hx, hv, hf, hpc, hkeep⟩ := writesRegThenFlag_of_exec (i := .addReg x y) (s := s) rfl
  exact ⟨decodeWord_addReg x y, t, hx, fun hne => by rw [hv hne, BitVec.toNat_add], by rw [hf, carryFlag, flagByte_decide],
    hpc, hkeep⟩

/-- Settles O27: the strict comparison is that of the numbers, written last (`writesRegThenFlag_of_exec`). -/
theorem subtractSetsStrictFlag : Obligations.SubtractSetsStrictFlag := by
  intro x y s
  obtain ⟨t, hx, hv, hf, hpc, hkeep⟩ := writesRegThenFlag_of_exec (i := .subReg x y) (s := s) rfl
  exact ⟨decodeWord_subReg x y, t, hx, fun hne => by rw [hv hne, byte_sub_toNat],
    by rw [hf, greaterFlag, flagByte_decide], hpc, hkeep⟩

/-- Settles O28: as for 8xy5, with the operands reversed. -/
theorem reverseSubtractSetsStrictFlag : Obligations.ReverseSubtractSetsStrictFlag := by
  intro x y s
  obtain ⟨t, hx, hv, hf, hpc, hkeep⟩ := writesRegThenFlag_of_exec (i := .subnReg x y) (s := s) rfl
  exact ⟨decodeWord_subnReg x y, t, hx, fun hne => by rw [hv hne, byte_sub_toNat],
    by rw [hf, greaterFlag, flagByte_decide], hpc, hkeep⟩

/-- Settles O30: the written byte is `s.rndByte &&& kk`, whatever the free byte is, and a conjunction has no bit outside
`kk`. -/
theorem randomIsMasked : Obligations.RandomIsMasked := by
  intro x kk s
  have hx : exec (.rnd x kk) s = .next ((s.countDraw.setV x (s.rndByte &&& kk)).advance 2) := rfl
  have hv : ((s.countDraw.setV x (s.rndByte &&& kk)).advance 2).getV x = s.rndByte &&& kk := by
    rw [State.getV_advance, State.getV_setV, if_pos rfl]
  have hle : (s.rndByte &&& kk).toNat ≤ kk.toNat := by
    rw [BitVec.toNat_and]
    exact Nat.and_le_right
  have hbits : ∀ b, kk.getLsbD b = false → (s.rndByte &&& kk).getLsbD b = false := by
    intro b hb
    rw [BitVec.getLsbD_and, hb, Bool.and_false]
  exact ⟨decodeWord_rnd x kk, _, hx, hv, by rwa [hv], by rwa [hv], rfl,
    keepsBut_of_completed_subset (i := .rnd x kk) rfl (by simp [writtenPieces])⟩

end Sys2Proof.Proofs
end

section
/-! The proofs about the index register's arithmetic and the memory instructions (spec/43_index_memory.md sections 3 to 7,
spec/20_memory.md section 9). -/

namespace Sys2Proof.Proofs
open Sys2Proof.Machine

/-! ## Decoding the words of the family (R50) -/

theorem decodeWord_addI (x : Reg) : decodeWord (wordX 0xF01E x) = .ok (.addI x) := by
  rw [decodeWord_familyF (base := 0xF01E) (kk := 0x1E) rfl]
  simp [decodeFamilyF]

theorem decodeWord_ldF (x : Reg) : decodeWord (wordX 0xF029 x) = .ok (.ldF x) := by
  rw [decodeWord_familyF (base := 0xF029) (kk := 0x29) rfl]
  simp [decodeFamilyF]

theorem decodeWord_ldB (x : Reg) : decodeWord (wordX 0xF033 x) = .ok (.ldB x) := by
  rw [decodeWord_familyF (base := 0xF033) (kk := 0x33) rfl]
  simp [decodeFamilyF]

theorem decodeWord_stRegs (x : Reg) : decodeWord (wordX 0xF055 x) = .ok (.stRegs x) := by
  rw [decodeWord_familyF (base := 0xF055) (kk := 0x55) rfl]
  simp [decodeFamilyF]

theorem decodeWord_ldRegs (x : Reg) : decodeWord (wordX 0xF065 x) = .ok (.ldRegs x) := by
  rw [decodeWord_familyF (base := 0xF065) (kk := 0x65) rfl]
  simp [decodeFamilyF]

/-! ## Arithmetic of I -/

/-- A byte is the same number as a word. -/
theorem byteWord_toNat (b : Byte) : (byteWord b).toNat = b.toNat := by
  have hb := b.isLt
  rw [byteWord, BitVec.toNat_setWidth]
  omega

/-- Five times a byte does not wrap (R103). -/
theorem byteWord_mul_five_toNat (b : Byte) : (byteWord b * 5).toNat = b.toNat * 5 := by
  have hb := b.isLt
  rw [BitVec.toNat_mul, byteWord_toNat, show (5 : Word).toNat = 5 from rfl]
  omega

/-- I moves past a block inside MEM without a wrap (R105, R106). -/
theorem bumpI_toNat {s : State} {x : Reg} (h : s.i.toNat + x.val ≤ 0xFFF) :
    (s.bumpI x).i.toNat = s.i.toNat + x.val + 1 := by
  rw [State.bumpI, State.setI_i, BitVec.toNat_add, BitVec.toNat_ofNat]
  omega

/-- Settles O32: words add modulo 65536, and a byte is the same number as a word. -/
theorem addToIndexWrapsAt65536 : Obligations.AddToIndexWrapsAt65536 := by
  intro x s
  obtain ⟨t, hx, hi, hpc, hkeep⟩ := writesIndex_of_exec (i := .addI x) (s := s) rfl
  exact ⟨decodeWord_addI x, t, hx, by rw [hi, BitVec.toNat_add, byteWord_toNat], hpc, hkeep⟩

/-- Settles O33: the product is that of the whole byte (`byteWord_mul_five_toNat`). -/
theorem glyphAddressIsFiveTimes : Obligations.GlyphAddressIsFiveTimes := by
  intro x s
  obtain ⟨t, hx, hi, hpc, hkeep⟩ := writesIndex_of_exec (i := .ldF x) (s := s) rfl
  exact ⟨decodeWord_ldF x, t, hx, by rw [hi, byteWord_mul_five_toNat], hpc, hkeep⟩

/-! ## Stores and loads -/

/-- The decimal digits as numbers (R104). -/
theorem decimalDigits_toNat (b : Byte) : ∃ h t o : Byte, decimalDigits b = [h, t, o] ∧
    h.toNat = b.toNat / 100 ∧ t.toNat = b.toNat / 10 % 10 ∧ o.toNat = b.toNat % 10 := by
  have hb := b.isLt
  refine ⟨_, _, _, rfl, ?_, ?_, ?_⟩ <;> rw [BitVec.toNat_ofNat] <;> omega

/-- Settles O34: within bounds one block write puts the three digits at I (`read_writeBytes_of_getElem?`); otherwise the
bound check raises before it. -/
theorem decimalDigitsAreStored : Obligations.DecimalDigitsAreStored := by
  intro x s
  refine ⟨decodeWord_ldB x, fun hin => ?_, fun hout => State.guardData_raise _ (by decide) (by omega)⟩
  obtain ⟨h, t, o, hdigits, hh, ht, ho⟩ := decimalDigits_toNat (s.getV x)
  have hread : ∀ k b, [h, t, o][k]? = some b →
      (s.mem.writeBytes s.i.toNat (decimalDigits (s.getV x))).read (s.i.toNat + k) = b := by
    intro k b hb
    rw [hdigits]
    exact read_writeBytes_of_getElem? s.mem s.i.toNat hb
  refine ⟨_, State.guardData_next _ (.inr (by omega)), ?_, ?_, ?_, fun a ha => ?_, rfl,
    keepsBut_of_completed_subset (i := .ldB x) rfl (by simp [writtenPieces])⟩
  · exact (congrArg BitVec.toNat (hread 0 h rfl)).trans hh
  · exact (congrArg BitVec.toNat (hread 1 t rfl)).trans ht
  · exact (congrArg BitVec.toNat (hread 2 o rfl)).trans ho
  · exact Memory.read_writeBytes_outside s.mem s.i.toNat _ a (by simp only [decimalDigits, List.length]; omega)

/-- A byte of the stored register block. -/
theorem block_getElem? (s : State) {x j : Reg} (h : j ≤ x) : (s.block x)[j.val]? = some (s.getV j) := by
  have hlt : j.val < (s.block x).length := by
    rw [State.length_block]
    exact Nat.lt_succ_of_le h
  rw [List.getElem?_eq_getElem hlt, ← s.getD_block x h, List.getD_eq_getElem _ _ hlt]

/-- Settles O35: within bounds one block write puts V0 to Vx at I (`read_writeBytes_of_getElem?`); otherwise the bound
check raises before it. -/
theorem blockStore : Obligations.BlockStore := by
  intro x s
  refine ⟨decodeWord_stRegs x, fun hin => ?_, fun hout => State.guardData_raise _ (by omega) (by omega)⟩
  refine ⟨_, State.guardData_next _ (.inr (by omega)), fun j hj => ?_, fun a ha => ?_, bumpI_toNat hin, rfl,
    keepsBut_of_completed_subset (i := .stRegs x) rfl (by simp [writtenPieces])⟩
  · exact read_writeBytes_of_getElem? s.mem s.i.toNat (block_getElem? s hj)
  · exact Memory.read_writeBytes_outside s.mem s.i.toNat _ a (by rw [State.length_block]; omega)

/-- Settles O36: within bounds each register of the block is read from its own byte (`State.getV_loadBlock`); otherwise
the bound check raises before it. -/
theorem blockLoad : Obligations.BlockLoad := by
  intro x s
  refine ⟨decodeWord_ldRegs x, fun hin => ?_, fun hout => State.guardData_raise _ (by omega) (by omega)⟩
  have hx : exec (.ldRegs x) s = .next (((s.loadBlock x s.i.toNat).bumpI x).advance 2) :=
    State.guardData_next _ (.inr (by omega))
  have hframe := keepsBut_of_completed_subset (i := .ldRegs x) (s := s) (p := [.pc, .i]) rfl (by simp [writtenPieces])
  have hv := State.getV_loadBlock s x s.i.toNat
  obtain ⟨w, hw⟩ := loadBlock_eq s x s.i.toNat
  rw [hw] at hx hframe hv
  exact ⟨_, hx, fun j hj => (hv j).trans (if_pos hj), fun j hj => (hv j).trans (if_neg (not_le.mpr hj)), bumpI_toNat hin,
    rfl, hframe⟩

/-- Settles O37: the store puts the two bytes at the new PC (`blockStore`), and the fetch there makes a word of them, the
first in the high half (`fetchIsBigEndian`). -/
theorem storedBytesAreFetchedNext : Obligations.StoredBytesAreFetchedNext := by
  intro x j k s t hin hx hk hkx hpc
  have hkx' : k.val ≤ x.val := hkx
  have hjx : j ≤ x := Fin.le_def.mpr (by omega)
  obtain ⟨-, hstore, -⟩ := blockStore x s
  obtain ⟨t', hx', hread, -⟩ := hstore hin
  cases hx.symm.trans hx'
  obtain ⟨w, hw, hval⟩ := fetchIsBigEndian t (by omega)
  have hfirst : t.mem.read t.pc.toNat = s.getV j := by
    rw [hpc]
    exact hread j hjx
  have hsecond : t.mem.read (t.pc.toNat + 1) = s.getV k := by
    rw [hpc, Nat.add_assoc, ← hk]
    exact hread k hkx
  exact ⟨w, hw, by rw [hval, hfirst, hsecond]⟩

end Sys2Proof.Proofs
end

section
/-! The proofs about the sprite draw (spec/44_display.md sections 2 and 3). -/

namespace Sys2Proof.Proofs
open Sys2Proof.Machine

theorem decodeWord_drw (x y : Reg) {n : Nat} (hn : n < 16) : decodeWord (wordXYN 0xD000 x y n) = .ok (.drw x y n) := by
  rw [wordXYN_eq_formatXYN (base := 0xD000) (op := 0xD) rfl x y hn]
  simp [decodeWord, rowCount_toNat hn]

/-! ## The cells a sprite covers -/

/-- The pixels the model draws are those a set bit of the sprite covers (R111, R113). -/
theorem mem_spritePixels_iff_covers {s : State} {xs ys n k : Nat} :
    k ∈ spritePixels xs ys 0 (s.mem.readBytes s.i.toNat n) ↔ SpriteCovers s xs ys n k := by
  have hbyte : ∀ r, r < n → (s.mem.readBytes s.i.toNat n).getD r 0 = s.mem.read (s.i.toNat + r) := by
    intro r hr
    rw [List.getD_eq_getElem?_getD, Memory.getElem?_readBytes _ _ _ _ hr, Option.getD_some]
  simp only [mem_spritePixels, Memory.length_readBytes, pixelIndex, Nat.zero_add]
  constructor
  · rintro ⟨r, hr, c, hc, hb, hk⟩
    exact ⟨r, hr, c, hc, hbyte r hr ▸ hb, hk⟩
  · rintro ⟨r, hr, c, hc, hb, hk⟩
    exact ⟨r, hr, c, hc, (hbyte r hr).symm ▸ hb, hk⟩

/-- Drawing turns over the covered cells of the display (R111 (c), (f)). -/
theorem cell_drawn_of_covers {s : State} {xs ys : Byte} {n k : Nat} (hk : k < 2048)
    (h : SpriteCovers s xs.toNat ys.toNat n k) : (s.drawn xs ys n).1.cell k = !s.fb.cell k := by
  rw [State.drawn, cell_drawPixels _ (nodup_spritePixels _ _ _ _), if_pos ⟨mem_spritePixels_iff_covers.mpr h, hk⟩]

/-- Drawing leaves the other cells. -/
theorem cell_drawn_of_not_covers {s : State} {xs ys : Byte} {n k : Nat} (h : ¬ SpriteCovers s xs.toNat ys.toNat n k) :
    (s.drawn xs ys n).1.cell k = s.fb.cell k := by
  rw [State.drawn, cell_drawPixels _ (nodup_spritePixels _ _ _ _),
    if_neg fun hm => h (mem_spritePixels_iff_covers.mp hm.1)]

/-- Drawing collides exactly on a covered cell that was lit (R111). -/
theorem hit_drawn_iff {s : State} {xs ys : Byte} {n : Nat} :
    (s.drawn xs ys n).2 = true ↔ ∃ k, k < 2048 ∧ SpriteCovers s xs.toNat ys.toNat n k ∧ s.fb.cell k = true := by
  rw [State.drawn, hit_drawPixels _ (nodup_spritePixels _ _ _ _)]
  constructor
  · rintro ⟨k, hm, hk, hlit⟩
    exact ⟨k, hk, mem_spritePixels_iff_covers.mp hm, hlit⟩
  · rintro ⟨k, hk, hc, hlit⟩
    exact ⟨k, mem_spritePixels_iff_covers.mpr hc, hk, hlit⟩

/-- The cells a sprite covers depend on I and memory only. -/
theorem spriteCovers_congr {s t : State} (hi : t.i = s.i) (hmem : ∀ a, t.mem.read a = s.mem.read a) (xs ys n k : Nat) :
    SpriteCovers t xs ys n k ↔ SpriteCovers s xs ys n k := by
  simp only [SpriteCovers, hi, hmem]

/-! ## The statements -/

/-- Settles O39: within bounds the draw replaces the display by the drawn one, whose cells and collision are those of the
covered cells (`cell_drawn_of_covers`, `hit_drawn_iff`), and writes VF last; otherwise the bound check raises before it. -/
theorem drawXorsSprite : Obligations.DrawXorsSprite := by
  intro x y n s
  refine ⟨decodeWord_drw x y, fun hin => ?_, fun hn hout => State.guardData_raise _ hn hout⟩
  have hx := State.guardData_next (((s.redraw (s.drawn (s.getV x) (s.getV y) n).1).setFlag
    (flagByte (s.drawn (s.getV x) (s.getV y) n).2)).advance 2) hin
  refine ⟨_, hx, fun k hk hc => cell_drawn_of_covers hk hc, fun k _ hc => cell_drawn_of_not_covers hc, fun hhit => ?_,
    fun hmiss => ?_, rfl, rfl, keepsBut_of_completed_subset (i := .drw x y n) rfl (by simp [writtenPieces])⟩
  · rw [getV_flag_setFlag_advance, hit_drawn_iff.mpr hhit]
    rfl
  · rw [getV_flag_setFlag_advance, Bool.eq_false_iff.mpr (mt hit_drawn_iff.mp hmiss)]
    rfl

/-- Settles O40: the first draw leaves I and memory, so with its coordinates kept the second covers the same cells
(`spriteCovers_congr`): each is turned over twice, and is lit before the second draw when it was dark before the first. -/
theorem drawingTwiceRestores : Obligations.DrawingTwiceRestores := by
  intro x y n s t hin hx hvx hvy
  obtain ⟨-, hdraw, -⟩ := drawXorsSprite x y n s
  obtain ⟨t', hx', hon, hoff, -, -, -, -, hkeeps⟩ := hdraw hin
  cases hx.symm.trans hx'
  obtain ⟨-, hi, -, -, -, hmem, -⟩ := hkeeps
  have hi' := hi (by decide)
  obtain ⟨-, hdraw', -⟩ := drawXorsSprite x y n t
  obtain ⟨u, hu, hon', hoff', hhit, hmiss, hdirty, -⟩ := hdraw' (hi' ▸ hin)
  simp only [hvx, hvy, spriteCovers_congr hi' (hmem (by decide))] at hon' hoff' hhit hmiss
  have hdark : ∀ k, k < 2048 ∧ SpriteCovers s (s.getV x).toNat (s.getV y).toNat n k ∧ t.fb.cell k = true ↔
      k < 2048 ∧ SpriteCovers s (s.getV x).toNat (s.getV y).toNat n k ∧ s.fb.cell k = false := by
    intro k
    refine and_congr_right fun hk => and_congr_right fun hc => ?_
    rw [hon k hk hc, Bool.not_eq_true']
  simp only [hdark] at hhit hmiss
  refine ⟨u, hu, fun k hk => ?_, hdirty, fun h1 => by_contra fun hnone => ?_, hhit⟩
  · by_cases hc : SpriteCovers s (s.getV x).toNat (s.getV y).toNat n k
    · rw [hon' k hk hc, hon k hk hc, Bool.not_not]
    · rw [hoff' k hk hc, hoff k hk hc]
  · exact absurd (h1.symm.trans (hmiss hnone)) (by decide)

end Sys2Proof.Proofs
end

section
/-! The proofs about the keys and the sound timer (spec/45_keys_timers.md sections 1, 3 and 4). -/

namespace Sys2Proof.Proofs
open Sys2Proof.Machine

/-! ## Decoding the words of the family (R50) -/

theorem decodeWord_skp (x : Reg) : decodeWord (wordX 0xE09E x) = .ok (.skp x) := by
  rw [wordX_eq_formatXKK (base := 0xE09E) (op := 0xE) (kk := 0x9E) rfl]
  simp [decodeWord, decodeFamilyE]

theorem decodeWord_sknp (x : Reg) : decodeWord (wordX 0xE0A1 x) = .ok (.sknp x) := by
  rw [wordX_eq_formatXKK (base := 0xE0A1) (op := 0xE) (kk := 0xA1) rfl]
  simp [decodeWord, decodeFamilyE]

theorem decodeWord_ldVxK (x : Reg) : decodeWord (wordX 0xF00A x) = .ok (.ldVxK x) := by
  rw [decodeWord_familyF (base := 0xF00A) (kk := 0x0A) rfl]
  simp [decodeFamilyF]

theorem decodeWord_ldStVx (x : Reg) : decodeWord (wordX 0xF018 x) = .ok (.ldStVx x) := by
  rw [decodeWord_familyF (base := 0xF018) (kk := 0x18) rfl]
  simp [decodeFamilyF]

/-! ## Keys -/

/-- A flag among the keys names its key: an index of at most 15. -/
theorem keyDown_of_getElem? {s : State} {x : Reg} {b : Bool} (h : s.key[(s.getV x).toNat]? = some b) :
    ∃ hlt : (s.getV x).toNat < 16, s.keyDown ⟨(s.getV x).toNat, hlt⟩ = b := by
  obtain ⟨hlt, hb⟩ := Vector.getElem?_eq_some_iff.mp h
  exact ⟨hlt, hb⟩

/-- Settles O41: with an index of at most 15 both are the conditional skip on the key's flag (`skips_of_exec`), and
otherwise the index check raises before it. -/
theorem skipOnKey : Obligations.SkipOnKey := by
  intro x s
  refine ⟨decodeWord_skp x, decodeWord_sknp x, fun b hb => ?_,
    fun h => ⟨State.withKeyIndex_raise (fun k => s.skipIf (s.keyDown k)) h,
      State.withKeyIndex_raise (fun k => s.skipIf (!s.keyDown k)) h⟩⟩
  obtain ⟨hlt, rfl⟩ := keyDown_of_getElem? hb
  exact ⟨skips_of_exec (State.withKeyIndex_next (fun k => s.skipIf (s.keyDown k)) hlt) Iff.rfl,
    skips_of_exec (State.withKeyIndex_next (fun k => s.skipIf (!s.keyDown k)) hlt) (Bool.not_eq_true' _).to_iff⟩

/-- With no key pressed Fx0A answers the state it finds. -/
theorem exec_ldVxK_of_pick_none {s : State} (x : Reg) (h : keyPick s.pressed = none) : exec (.ldVxK x) s = .next s := by
  rw [exec, execLdVxK, h]

/-- Fx0A on the key that KeyPick gives. -/
theorem exec_ldVxK_of_pick_some {s : State} {k : Key} (x : Reg) (h : keyPick s.pressed = some k) :
    exec (.ldVxK x) s = s.result x (BitVec.ofNat 8 k.val) := by
  rw [exec, execLdVxK, h]
  rfl

/-- No key is pressed exactly when every flag is clear. -/
theorem keyPick_eq_none_iff {s : State} : keyPick s.pressed = none ↔ ∀ k : Key, s.key[k.val] = false := by
  rw [keyPick, pickWith_eq_none, List.eq_nil_iff_forall_not_mem]
  simp only [State.mem_pressed, State.keyDown, Bool.not_eq_true]

/-- A key index is the same number as a byte. -/
theorem keyByte_toNat (k : Key) : (BitVec.ofNat 8 k.val).toNat = k.val := by
  rw [BitVec.toNat_ofNat]
  omega

/-- Settles O43: KeyPick gives nothing exactly when no key is pressed (`keyPick_eq_none_iff`), and otherwise a pressed key
(`pickWith_mem`), whose index is written to V[x] (`writesReg_of_exec`); one pressed key is the only member to give. -/
theorem waitForKey : Obligations.WaitForKey := by
  intro x s
  refine ⟨decodeWord_ldVxK x, fun hnone => exec_ldVxK_of_pick_none x (keyPick_eq_none_iff.mpr hnone), fun k hk => ?_⟩
  cases hp : keyPick s.pressed with
  | none => exact absurd (keyPick_eq_none_iff.mp hp k) (by simp [hk])
  | some p =>
    have hdown : s.key[p.val] = true := (State.mem_pressed s p).mp (pickWith_mem hp)
    obtain ⟨t, hx, hv, hpc, hkeep⟩ := writesReg_of_exec (exec_ldVxK_of_pick_some x hp)
    exact ⟨t, p, hx, hdown, by rw [hv, keyByte_toNat], hpc, hkeep, fun honly => honly p hdown⟩

/-! ## The sound timer -/

/-- Settles O45: the write puts V[x] into ST alone, and the timer update of the same STEP counts the new value down and
raises the tone on it (`cycle_of_runs`). -/
theorem setSoundTimer : Obligations.SetSoundTimer := by
  intro x s
  have hx : exec (.ldStVx x) s = .next ((s.setSt (s.getV x)).advance 2) := rfl
  exact ⟨decodeWord_ldStVx x,
    ⟨_, hx, rfl, rfl, keepsBut_of_completed_subset (i := .ldStVx x) rfl (by simp [writtenPieces])⟩,
    fun hr => ⟨_, _, cycle_of_runs hr hx rfl, countDown_toNat (s.getV x), beq_iff_eq⟩⟩

end Sys2Proof.Proofs
end

section
/-! The proofs about reset and the host's reads (spec/10_state.md section 8, spec/60_exceptions.md section 8). -/

namespace Sys2Proof.Proofs
open Sys2Proof.Machine

/-- Reset's memory lists no cell, so it reads as the font below 80 and 0 from there on (R17). -/
theorem read_reset (a : Nat) : State.reset.mem.read a = unlistedByte a := rfl

/-- RESET keeps the count of draws and sets everything else. -/
theorem keepsBut_hostReset (s : State) : KeepsBut [.draws] [] State.reset (hostReset s) := by
  simp [KeepsBut, hostReset, State.getV]

/-- Settles O55: the reset state is written out (`State.reset`), with the font where memory lists nothing (`read_reset`),
and RESET differs from it by the count of draws (`keepsBut_hostReset`). -/
theorem resetLeavesResetState : Obligations.ResetLeavesResetState := by
  exact ⟨by decide, rfl, rfl, rfl, fun j hj => Vector.getElem?_replicate_of_lt hj, fun a ha => (read_reset a).trans (if_pos ha),
    fun a ha _ => (read_reset a).trans (if_neg (Nat.not_lt.mpr ha)), fun k _ => Display.cell_blank k, rfl, rfl, rfl, by decide, rfl, rfl,
    fun s => ⟨_, rfl, keepsBut_hostReset s⟩⟩

/-- Settles O58: FB_READ lists the cells of the indices below 2048 in order, and the other two return the flag or the byte
they name; only DIRTY_CONSUME writes, and only DIRTY. -/
theorem hostReadsObserve : Obligations.HostReadsObserve := by
  intro s
  have hlength : (hostFbRead s).length = 2048 := by
    rw [hostFbRead, List.length_map, List.length_range]
  have hcells : ∀ k, k < 2048 → (hostFbRead s)[k]? = some (s.fb.cell k) := by
    intro k hk
    rw [hostFbRead, List.getElem?_map, List.getElem?_range hk, Option.map_some]
  have hkeeps : KeepsBut [.dirty] [] s (hostDirtyConsume s).1 := by
    simp [KeepsBut, hostDirtyConsume, State.getV]
  exact ⟨⟨_, rfl, hlength, hcells⟩, ⟨_, rfl, rfl, hkeeps⟩, rfl⟩

end Sys2Proof.Proofs
end
